-- ==== Sys2Proof/Word.lean ====
section
/-! DEFINITION. The word types of the block: a byte, a 32-bit register word (`REGW`), a 64-bit memory
address (`AW`), and the size of the memory space. Spec: 00_scope.md R6, R7; 10_state.md R44. -/

namespace Sys2Proof

/-- A byte of memory (10_state.md R44). -/
abbrev Byte := BitVec 8

/-- A host-visible register, dimension, stride, pitch or handle: `REGW = DIMW = HW = 32` (R6). -/
abbrev Word := BitVec 32

/-- A memory address, `AW = 64` bits (R6; notes/assumptions/10.md). -/
abbrev Addr := BitVec 64

/-- `2^AW`: every address handed to memory is below it (R7, R8). -/
abbrev addrSpace : Nat := 2 ^ 64

end Sys2Proof
end

