-- ==== Sys2Proof/Config.lean ====
section
/-! DEFINITION. What is fixed for the machine and what the spec leaves open: the one free value of the
model. -/

namespace Sys2Proof

/-- The free choice behind a COPY phase in which two accesses touch one byte
(93_implementation_defined.md U6: "any value per overlapped byte among the values some order of
accesses would leave"; notes/assumptions/4.md). `freePick draw a n` is the n-th pick of the access order
that settles byte address `a` in the `draw`-th such phase. It has no body, so no proof can know it. -/
opaque Config.freePick : Nat → Nat → Nat → Nat

end Sys2Proof
end

