-- ==== Sys2Proof/Syntax.lean ====
section
/-! DEFINITION. The 16 rows of spec/opcode_table.json as one inductive, and the encoded messages of the
four formats of 30_encoding.md R90. -/

namespace Sys2Proof

/-- One constructor per row of the opcode table. The present bits a command's mask leaves free are its
operands beside DEPTH (30_encoding.md R91, R101). -/
inductive Instr where
  /-- UPL.DUAL.8 (R160). -/
  | uplDual8 (pLuma pChroma : Bool) (depth : BitVec 8)
  /-- UPL.DUAL.16 (R161). -/
  | uplDual16 (pLuma pChroma : Bool) (depth : BitVec 8)
  /-- UPL.YUV444.8 (R162). -/
  | uplYuv8 (pLuma pChroma pRgb : Bool) (depth : BitVec 8)
  /-- UPL.YUV444.16 (R163). -/
  | uplYuv16 (pLuma pChroma pRgb : Bool) (depth : BitVec 8)
  /-- UPL.RGB.8 (R164). -/
  | uplRgb8 (pLuma pChroma : Bool) (depth : BitVec 8)
  /-- UPL.RGB.16 (R165). -/
  | uplRgb16 (pLuma pChroma : Bool) (depth : BitVec 8)
  /-- ENG.SPLIT.1 (R132). -/
  | engSplit1
  /-- ENG.SPLIT.2 (R133). -/
  | engSplit2
  /-- ENG.PACKED.1 (R130). -/
  | engPacked1
  /-- ENG.PACKED.2 (R131). -/
  | engPacked2
  /-- LOCK (R184). -/
  | lock (handle : Word)
  /-- UNLOCK (R185). -/
  | unlock (handle : Word)
  /-- RD (R180): the word index is `offset[7:2]` (R108). -/
  | rd (widx : BitVec 6)
  /-- WR.CMD (R181). -/
  | wrCmd (wdata : Word)
  /-- WR to a descriptor register (R182). -/
  | wr (widx : BitVec 6) (wdata : Word)
  /-- WR to STATUS or a reserved offset (R183). -/
  | wrIgnored (widx : BitVec 6) (wdata : Word)
  deriving DecidableEq, Repr

/-- An encoded message, by format (30_encoding.md R90). REGACC has two lengths: a read carries no
`wdata` (R108). -/
inductive PortWord where
  /-- CMD, 32 bits (R91). -/
  | cmd (w : BitVec 32)
  /-- ENGSEL, 2 bits (R99). -/
  | engsel (w : BitVec 2)
  /-- LOCKMSG request, 33 bits: `op` in bit 32, `handle` in bits 31..0 (R105, opcode_table.json). -/
  | lockmsg (w : BitVec 33)
  /-- REGACC read, 7 bits: `rw` in bit 6, `widx` in bits 5..0 (R108). -/
  | regRead (w : BitVec 7)
  /-- REGACC write, 39 bits: `rw` in bit 38, `widx` in bits 37..32, `wdata` in bits 31..0 (R108). -/
  | regWrite (w : BitVec 39)
  deriving DecidableEq, Repr

end Sys2Proof
end

