-- ==== Sys2Proof/Machine/State.lean ====
section
/-! DEFINITION. The state of the machine as plain data, the reasons a step can stop, and the state after
reset. Spec: 10_state.md; 42_host_and_lock_transactions.md R184, R185; 60_exceptions.md R200. -/

namespace Sys2Proof.Machine

open Sys2Proof

/-- The 18 descriptor registers by name (R21). -/
inductive Reg where
  | frameIndex | dstFormat
  | src0Lo | src0Hi | src1Lo | src1Hi | src2Lo | src2Hi
  | lumaWidth | lumaHeight | lumaStride
  | chromaWidth | chromaHeight | chromaStride
  | hLuma | hChroma | hYuv444 | hRgb
  deriving DecidableEq, Repr

/-- The contents of the descriptor registers (R20, R21). -/
structure Regs where
  frameIndex : Word
  dstFormat : Word
  src0Lo : Word
  src0Hi : Word
  src1Lo : Word
  src1Hi : Word
  src2Lo : Word
  src2Hi : Word
  lumaWidth : Word
  lumaHeight : Word
  lumaStride : Word
  chromaWidth : Word
  chromaHeight : Word
  chromaStride : Word
  hLuma : Word
  hChroma : Word
  hYuv444 : Word
  hRgb : Word
  deriving DecidableEq, Repr

/-- Failure causes (R200). Codes 6 to 15 are never produced, so they have no constructor. -/
inductive Cause where
  | none | mainLockDenied | chromaLockDenied | illegalCmd | mainAbsent | chromaAbsent
  deriving DecidableEq, Repr

/-- The fields of STATUS (R33). Its reserved bits read 0. -/
structure Status where
  busy : Bool
  done : Bool
  success : Bool
  cause : Cause
  deriving DecidableEq, Repr

/-- The sequencer's position (R36). -/
inductive Phase where
  | idle | lockMain | lockChroma | copy | unlockChroma | unlockMain
  deriving DecidableEq, Repr

/-- The four destination surfaces (R6, R27). -/
inductive Surface where
  | luma | chroma | yuv444 | rgb
  deriving DecidableEq, Repr

/-- The topology of an operation (R96). -/
inductive Topology where
  | packed | split
  deriving DecidableEq, Repr

/-- The two windows an operation may hold: main and chroma (R70). -/
inductive Window where
  | main | chroma
  deriving DecidableEq, Repr

/-- The operation context (R40), with the ghost extent of each grant (R45; notes/assumptions/17.md). -/
structure Ctx where
  present : BitVec 4
  depth : BitVec 8
  src0 : Addr
  src1 : Addr
  src2 : Addr
  lw : Word
  lh : Word
  ls : Word
  cw : Word
  ch : Word
  cs : Word
  hLuma : Word
  hChroma : Word
  hYuv444 : Word
  hRgb : Word
  frameIndex : Word
  dstFormat : Word
  mainBase : Addr
  mainPitch : Word
  mainExtent : Nat
  chromaBase : Addr
  chromaPitch : Word
  chromaExtent : Nat
  mainHeld : Bool
  chromaHeld : Bool
  pendOk : Bool
  pendCause : Cause
  deriving DecidableEq, Repr

/-- The lock agent's answer to a LOCK (R184), with the ghost extent of the window (R45). -/
inductive LockAnswer where
  | grant (base : Addr) (pitch : Word) (extent : Nat)
  | deny
  deriving DecidableEq, Repr

/-- A lock the agent has granted to the block and not yet taken back (R45). -/
structure HeldLock where
  handle : Word
  base : Addr
  pitch : Word
  extent : Nat
  deriving DecidableEq, Repr

/-- One completed lock-port transaction (R159, R184, R185). -/
inductive LockEvent where
  | lock (handle : Word) (answer : LockAnswer)
  | unlock (handle : Word)
  deriving DecidableEq, Repr

/-- What happens next, by the agent that does it (R10; notes/assumptions/2.md). -/
inductive Turn where
  /-- The host reads a register: a REGACC read (R180). -/
  | read (w : BitVec 7)
  /-- The host writes a register: a REGACC write (R181 to R183). -/
  | write (w : BitVec 39)
  /-- The host writes a CMD word and waits the operation out (R160 to R165; notes/assumptions/1.md). -/
  | command (w : BitVec 32)
  /-- The block takes its step, if it has one. -/
  | block
  /-- The reset input is asserted (R230). -/
  | reset
  /-- The host stores a byte to memory by its own means (R44). -/
  | store (a : Addr) (b : Byte)
  deriving DecidableEq, Repr

/-- Memory: (address, byte) pairs, addresses strictly rising, no entry equal to what an unlisted address
reads as (R44; `Memory.wf` in Machine/Ops.lean). -/
abbrev Memory := List Host.Cell

/-- The machine's state: what the spec gives the block, memory and the lock agent, then the model's own
fields (INVENTORY.md). -/
structure State where
  /-- Descriptor registers (R20, R21). -/
  regs : Regs
  /-- CMD (R31). -/
  cmd : Word
  /-- STATUS (R33). -/
  status : Status
  /-- Sequencer position (R36). -/
  phase : Phase
  /-- Operation context (R40). -/
  ctx : Ctx
  /-- Memory (R44). -/
  mem : Memory
  /-- Lock-agent state: the locks the block holds, newest first (R45). -/
  agentLocks : List HeldLock
  /-- Input: the lock agent's answers to come (R184). -/
  answers : List LockAnswer
  /-- Input: who moves next (R10, R211). -/
  turns : List Turn
  /-- Observation: the lock-port transactions so far, oldest first (R159). -/
  lockTrace : List LockEvent
  /-- Observation: word index and value of each RD so far, oldest first (R180). -/
  hostReads : List (BitVec 6 × Word)
  /-- How many COPY phases have drawn free values (notes/assumptions/4.md). -/
  draws : Nat
  deriving DecidableEq, Repr

/-- Why the machine stops. -/
inductive Fault where
  /-- Raised by the COPY phase (ENG.PACKED.1, ENG.PACKED.2, ENG.SPLIT.1, ENG.SPLIT.2, and the UPL commands
  that run them) when a write would land outside the window the block holds: 93_implementation_defined.md
  U3, treatment `fault`. Safe: the model stops where the block would write on. -/
  | outOfWindow
  deriving DecidableEq, Repr

/-- Why a step has no meaning. -/
inductive Refusal where
  /-- Raised by a dispatch arm whose instruction has no meaning yet; no arm does. Safe. -/
  | notModelled (mnemonic : String)
  /-- Raised by ENG, LOCK and UNLOCK in a phase in which the block does not issue them (R155, R184, R185;
  notes/assumptions/15.md). No step of the machine raises it. Safe. -/
  | wrongPhase
  /-- Raised by a REGACC word whose rw bit contradicts its length (R108, R180: it cannot be expressed on
  the port). Safe. -/
  | malformedAccess
  /-- Raised by the reset input while BUSY = 1: R231, 93_implementation_defined.md U7, treatment `refuse`.
  Safe. -/
  | resetWhileBusy
  /-- Raised by a host store into a source region or a granted window while BUSY = 1: R241,
  93_implementation_defined.md U5, treatment `refuse`. Safe. -/
  | racingStore
  deriving DecidableEq, Repr

/-- Descriptor registers after reset: all 0 (R50). -/
def Regs.zero : Regs :=
  { frameIndex := 0, dstFormat := 0
    src0Lo := 0, src0Hi := 0, src1Lo := 0, src1Hi := 0, src2Lo := 0, src2Hi := 0
    lumaWidth := 0, lumaHeight := 0, lumaStride := 0
    chromaWidth := 0, chromaHeight := 0, chromaStride := 0
    hLuma := 0, hChroma := 0, hYuv444 := 0, hRgb := 0 }

/-- The context after reset: the held bits are 0 (R50); every other field is unspecified and dead, and
holds 0 here (DESIGN CHOICE, unsafe; notes/assumptions/6.md). -/
def Ctx.zero : Ctx :=
  { present := 0, depth := 0, src0 := 0, src1 := 0, src2 := 0
    lw := 0, lh := 0, ls := 0, cw := 0, ch := 0, cs := 0
    hLuma := 0, hChroma := 0, hYuv444 := 0, hRgb := 0, frameIndex := 0, dstFormat := 0
    mainBase := 0, mainPitch := 0, mainExtent := 0
    chromaBase := 0, chromaPitch := 0, chromaExtent := 0
    mainHeld := false, chromaHeld := false, pendOk := false, pendCause := .none }

/-- STATUS after reset: 0x00000000 (R50). -/
def Status.zero : Status := { busy := false, done := false, success := false, cause := .none }

/-- The machine right after reset (R50, R230). The lock agent, the inputs and the observations are empty
and `draws` is 0 (DESIGN CHOICE; notes/assumptions/2.md, 3.md, 4.md, 12.md, 13.md). -/
def State.reset : State :=
  { regs := Regs.zero, cmd := 0, status := Status.zero, phase := .idle, ctx := Ctx.zero, mem := []
    agentLocks := [], answers := [], turns := [], lockTrace := [], hostReads := [], draws := 0 }

end Sys2Proof.Machine
end

