-- ==== Sys2Proof/Machine/Flags.lean ====
section
/-! DEFINITION. STATUS: its word, its cause codes, and the two ways it is written. Spec: 10_state.md R33 to
R35; 41_frame_upload_coordinator.md R158; 42_host_and_lock_transactions.md R181; 60_exceptions.md R200. -/

namespace Sys2Proof.Machine

open Sys2Proof

/-- The code of a cause, STATUS[7:4] (R200). -/
def causeCode (c : Cause) : BitVec 4 :=
  match c with
  | .none => 0#4
  | .mainLockDenied => 1#4
  | .chromaLockDenied => 2#4
  | .illegalCmd => 3#4
  | .mainAbsent => 4#4
  | .chromaAbsent => 5#4

/-- What a read of STATUS returns: `{24'b0, CAUSE[3:0], 1'b0, SUCCESS, DONE, BUSY}` (R33, R180). -/
def statusWord (f : Status) : Word :=
  0#24 ++ causeCode f.cause ++ 0#1 ++ BitVec.ofBool f.success ++ BitVec.ofBool f.done ++ BitVec.ofBool f.busy

/-- STATUS when a command is accepted: BUSY set, DONE, SUCCESS and CAUSE cleared (R181 (a)). -/
def statusAccepted : Status := { busy := true, done := false, success := false, cause := .none }

/-- STATUS as `finish(ok, cause)` writes it (R158). -/
def statusFinished (ok : Bool) (cause : Cause) : Status :=
  { busy := false, done := true, success := ok, cause := cause }

end Sys2Proof.Machine
end

