-- ==== Sys2Proof/WellFormed.lean ====
section
/-! DEFINITION. Which terms of `Instr` are instructions of the hardware: the DEPTH condition of each
command (30_encoding.md R101) and the word-index range of each register write (R181 to R183). -/

namespace Sys2Proof

/-- DEPTH of a `.8` command: `DEPTH <= 8` (R94, R101). -/
def depthNarrow (d : BitVec 8) : Bool := decide (d.toNat ≤ 8)

/-- Word indices of the descriptor registers, offsets 0x08 to 0x4C (R21, R182). -/
def widxDescriptor (i : BitVec 6) : Bool := decide (2 ≤ i.toNat ∧ i.toNat ≤ 19)

/-- Word indices whose writes are ignored: STATUS, or a reserved offset 0x50 to 0xFC (R183). -/
def widxIgnored (i : BitVec 6) : Bool := decide (i.toNat = 1 ∨ 20 ≤ i.toNat)

/-- Well-formedness of an instruction term. -/
def Instr.wf (i : Instr) : Bool :=
  match i with
  | .uplDual8 _ _ d => depthNarrow d
  | .uplDual16 _ _ d => !depthNarrow d
  | .uplYuv8 _ _ _ d => depthNarrow d
  | .uplYuv16 _ _ _ d => !depthNarrow d
  | .uplRgb8 _ _ d => depthNarrow d
  | .uplRgb16 _ _ d => !depthNarrow d
  | .engSplit1 => true
  | .engSplit2 => true
  | .engPacked1 => true
  | .engPacked2 => true
  | .lock _ => true
  | .unlock _ => true
  | .rd _ => true
  | .wrCmd _ => true
  | .wr i _ => widxDescriptor i
  | .wrIgnored i _ => widxIgnored i

end Sys2Proof
end

