-- ==== Sys2Proof/Decode.lean ====
section
/-! DEFINITION. Decoding of every message to an instruction or a named rejection, total on any bits; the
encoder after it, from the same formats. Spec: 30_encoding.md R90, R91, R99 to R101, R105, R108. -/

namespace Sys2Proof

/-- Why a message is no instruction. -/
inductive DecodeError where
  /-- A CMD word with a bit of [7:4] or [31:16] set (R100). -/
  | reservedBits
  /-- A 7-bit REGACC word whose rw bit says write (R108). -/
  | readSaysWrite
  /-- A 39-bit REGACC word whose rw bit says read (R108). -/
  | writeSaysRead
  /-- No format has this length, or the value does not fit it (R90: one length per format). -/
  | noFormat
  deriving DecidableEq, Repr

/-- Whether the reserved bits [7:4] and [31:16] of a CMD word are all 0 (R91, R100). -/
def cmdLegal (v : BitVec 32) : Bool := v.extractLsb' 4 4 == 0#4 && v.extractLsb' 16 16 == 0#16

/-- PRESENT, CMD[3:0] (10_state.md R31). -/
def cmdPresent (v : BitVec 32) : BitVec 4 := v.extractLsb' 0 4

/-- DEPTH, CMD[15:8] (R91). -/
def cmdDepth (v : BitVec 32) : BitVec 8 := v.extractLsb' 8 8

/-- The six commands by main surface and width (R101). -/
def decodeCmd (v : BitVec 32) : Except DecodeError Instr :=
  if cmdLegal v then
    let pLuma := v.getLsbD 0
    let pChroma := v.getLsbD 1
    let pYuv := v.getLsbD 2
    let pRgb := v.getLsbD 3
    let d := cmdDepth v
    if pYuv then
      if depthNarrow d then .ok (.uplYuv8 pLuma pChroma pRgb d) else .ok (.uplYuv16 pLuma pChroma pRgb d)
    else if pRgb then
      if depthNarrow d then .ok (.uplRgb8 pLuma pChroma d) else .ok (.uplRgb16 pLuma pChroma d)
    else
      if depthNarrow d then .ok (.uplDual8 pLuma pChroma d) else .ok (.uplDual16 pLuma pChroma d)
  else .error .reservedBits

/-- ENGSEL is the pair of `single` and `W == 2` (R99). -/
def decodeEngsel (e : BitVec 2) : Instr :=
  match e.getLsbD 1, e.getLsbD 0 with
  | false, false => .engSplit1
  | false, true => .engSplit2
  | true, false => .engPacked1
  | true, true => .engPacked2

/-- LOCKMSG requests: op 0 is LOCK, op 1 is UNLOCK (R105). -/
def decodeLockmsg (w : BitVec 33) : Instr :=
  if w.getLsbD 32 then .unlock (w.extractLsb' 0 32) else .lock (w.extractLsb' 0 32)

/-- A register read (R108, R180). -/
def decodeRegRead (w : BitVec 7) : Except DecodeError Instr :=
  if w.getLsbD 6 then .error .readSaysWrite else .ok (.rd (w.extractLsb' 0 6))

/-- A register write: CMD at index 0, a descriptor register at 2 to 19, ignored elsewhere
(R108, R181 to R183). -/
def decodeRegWrite (w : BitVec 39) : Except DecodeError Instr :=
  let i := w.extractLsb' 32 6
  let v := w.extractLsb' 0 32
  if !w.getLsbD 38 then .error .writeSaysRead
  else if i == 0#6 then .ok (.wrCmd v)
  else if widxDescriptor i then .ok (.wr i v)
  else .ok (.wrIgnored i v)

/-- The decoder, on a message of any format. -/
def decode (p : PortWord) : Except DecodeError Instr :=
  match p with
  | .cmd v => decodeCmd v
  | .engsel e => .ok (decodeEngsel e)
  | .lockmsg w => .ok (decodeLockmsg w)
  | .regRead w => decodeRegRead w
  | .regWrite w => decodeRegWrite w

/-- The CMD word with the given fields and every reserved bit 0 (R91). -/
def cmdWord (pLuma pChroma pYuv pRgb : Bool) (depth : BitVec 8) : BitVec 32 :=
  0#16 ++ depth ++ 0#4 ++ BitVec.ofBool pRgb ++ BitVec.ofBool pYuv ++ BitVec.ofBool pChroma ++ BitVec.ofBool pLuma

/-- The 33-bit LOCKMSG request (R105). -/
def lockWord (unlock : Bool) (handle : Word) : BitVec 33 := BitVec.ofBool unlock ++ handle

/-- The 7-bit REGACC read (R108). -/
def readWord (widx : BitVec 6) : BitVec 7 := 0#1 ++ widx

/-- The 39-bit REGACC write (R108). -/
def writeWord (widx : BitVec 6) (v : Word) : BitVec 39 := 1#1 ++ widx ++ v

/-- The encoder: the message of an instruction. -/
def encode (i : Instr) : PortWord :=
  match i with
  | .uplDual8 pl pc d => .cmd (cmdWord pl pc false false d)
  | .uplDual16 pl pc d => .cmd (cmdWord pl pc false false d)
  | .uplYuv8 pl pc pr d => .cmd (cmdWord pl pc true pr d)
  | .uplYuv16 pl pc pr d => .cmd (cmdWord pl pc true pr d)
  | .uplRgb8 pl pc d => .cmd (cmdWord pl pc false true d)
  | .uplRgb16 pl pc d => .cmd (cmdWord pl pc false true d)
  | .engSplit1 => .engsel 0b00#2
  | .engSplit2 => .engsel 0b01#2
  | .engPacked1 => .engsel 0b10#2
  | .engPacked2 => .engsel 0b11#2
  | .lock h => .lockmsg (lockWord false h)
  | .unlock h => .lockmsg (lockWord true h)
  | .rd i => .regRead (readWord i)
  | .wrCmd v => .regWrite (writeWord 0#6 v)
  | .wr i v => .regWrite (writeWord i v)
  | .wrIgnored i v => .regWrite (writeWord i v)

/-- The message whose table bits are `w`, by its length in bits, given exactly or rounded up to whole
bytes. Rounded up, ENGSEL (2 bits) and a REGACC read (7 bits) share the length 8, and LOCKMSG (33) and a
REGACC write (39) the length 40: a value that fits the shorter format is read as that format
(notes/assumptions/14.md; the four formats travel on ports of their own, R90, so the hardware never meets
this choice). -/
def frameTableWord (nbits w : Nat) : Except DecodeError PortWord :=
  if nbits = 32 ∧ w < 2 ^ 32 then .ok (.cmd (BitVec.ofNat 32 w))
  else if (nbits = 2 ∨ nbits = 8) ∧ w < 2 ^ 2 then .ok (.engsel (BitVec.ofNat 2 w))
  else if (nbits = 7 ∨ nbits = 8) ∧ w < 2 ^ 7 then .ok (.regRead (BitVec.ofNat 7 w))
  else if (nbits = 33 ∨ nbits = 40) ∧ w < 2 ^ 33 then .ok (.lockmsg (BitVec.ofNat 33 w))
  else if (nbits = 39 ∨ nbits = 40) ∧ w < 2 ^ 39 then .ok (.regWrite (BitVec.ofNat 39 w))
  else .error .noFormat

/-- The instruction of a table word, by the decoder (the host's interface). -/
def decodeTableWord (nbits w : Nat) : Option Instr :=
  match frameTableWord nbits w with
  | .error _ => none
  | .ok p =>
    match decode p with
    | .error _ => none
    | .ok i => some i

end Sys2Proof
end

