-- ==== Sys2Proof/Machine/Operands.lean ====
section
/-! DEFINITION. Mode decode (30_encoding.md R92 to R99), the engine's operands and its address functions
(40_plane_upload_engine.md R120 to R123), and the descriptor register file's accessors (10_state.md
R21, R22). -/

namespace Sys2Proof.Machine

open Sys2Proof

/-! ### Mode decode: functions of PRESENT and DEPTH -/

/-- Whether the surface's PRESENT bit is 1 (R31, R92). -/
def presentBit (p : BitVec 4) (f : Surface) : Bool :=
  match f with
  | .luma => p.getLsbD 0
  | .chroma => p.getLsbD 1
  | .yuv444 => p.getLsbD 2
  | .rgb => p.getLsbD 3

/-- `single = p_yuv444 OR p_rgb` (R93). -/
def single (p : BitVec 4) : Bool := presentBit p .yuv444 || presentBit p .rgb

/-- `W = 1 if depth <= 8 else 2` (R94). -/
def sampleWidth (d : BitVec 8) : Nat := if d.toNat ≤ 8 then 1 else 2

/-- The main surface (R95). -/
def mainSel (p : BitVec 4) : Surface :=
  if presentBit p .yuv444 then .yuv444 else if presentBit p .rgb then .rgb else .luma

/-- `T = PACKED if single else SPLIT` (R96). -/
def topology (p : BitVec 4) : Topology := if single p then .packed else .split

/-- The plane routed to channel `k`, by topology and width; `W = 1` is depth 8 or less (R94, R97). -/
def channelPlane (t : Topology) (w k : Nat) : Nat :=
  match t with
  | .packed => if w = 1 then 2 - k else k
  | .split => if w = 1 ∧ k ≠ 0 then 3 - k else k

/-- `off = 1 if W = 1 else 0` (R98). -/
def chromaOffset (w : Nat) : Nat := if w = 1 then 1 else 0

/-- `ENGSEL = {single, (W == 2)}` (R99). -/
def engsel (p : BitVec 4) (d : BitVec 8) : BitVec 2 :=
  BitVec.ofBool (single p) ++ BitVec.ofBool (decide (sampleWidth d = 2))

/-- `ctx.h[f]` (R40). -/
def ctxHandle (c : Ctx) (f : Surface) : Word :=
  match f with
  | .luma => c.hLuma
  | .chroma => c.hChroma
  | .yuv444 => c.hYuv444
  | .rgb => c.hRgb

/-- The handle of the main surface, `ctx.h[main_sel]` (R95). -/
def mainHandle (c : Ctx) : Word := ctxHandle c (mainSel c.present)

/-- `ctx.src[n]` (R40). -/
def ctxSrc (c : Ctx) (n : Nat) : Addr :=
  match n with
  | 0 => c.src0
  | 1 => c.src1
  | _ => c.src2

/-! ### Engine operands -/

/-- The engine's operands (R120): `W`, `off`, the channel bases, the dimensions, the element-strides of
channel 0 and of channels 1 and 2 (R122), the window bases and element-pitches (R121). -/
structure EngOperands where
  w : Nat
  off : Nat
  c0 : Nat
  c1 : Nat
  c2 : Nat
  lw : Nat
  lh : Nat
  cw : Nat
  ch : Nat
  es0 : Nat
  es1 : Nat
  dMain : Nat
  epMain : Nat
  dChroma : Nat
  epChroma : Nat
  deriving DecidableEq, Repr

/-- `e = b div W` (R121). -/
def elementStride (b : Word) (w : Nat) : Nat := b.toNat / w

/-- The operands of the specialization with topology `t` and width `w`, from the context (R120). -/
def engOperands (t : Topology) (w : Nat) (c : Ctx) : EngOperands :=
  { w := w
    off := chromaOffset w
    c0 := (ctxSrc c (channelPlane t w 0)).toNat
    c1 := (ctxSrc c (channelPlane t w 1)).toNat
    c2 := (ctxSrc c (channelPlane t w 2)).toNat
    lw := c.lw.toNat
    lh := c.lh.toNat
    cw := c.cw.toNat
    ch := c.ch.toNat
    es0 := elementStride c.ls w
    es1 := elementStride c.cs w
    dMain := c.mainBase.toNat
    epMain := elementStride c.mainPitch w
    dChroma := c.chromaBase.toNat
    epChroma := elementStride c.chromaPitch w }

/-- The base address of channel `k`. -/
def channelBase (o : EngOperands) (k : Nat) : Nat :=
  match k with
  | 0 => o.c0
  | 1 => o.c1
  | _ => o.c2

/-- The element-stride of channel `k`: strides belong to channel positions (R122). -/
def channelStride (o : EngOperands) (k : Nat) : Nat := if k = 0 then o.es0 else o.es1

/-- `SrcAddr(k, x, y)` (R123). -/
def srcAddr (o : EngOperands) (k x y : Nat) : Nat :=
  (channelBase o k + (y * channelStride o k + x) * o.w) % addrSpace

/-- `MainAddr(s, y)` (R123). -/
def mainAddr (o : EngOperands) (slot y : Nat) : Nat :=
  (o.dMain + (y * o.epMain + slot) * o.w) % addrSpace

/-- `ChromaAddr(s, y)` (R123). -/
def chromaAddr (o : EngOperands) (slot y : Nat) : Nat :=
  (o.dChroma + (y * o.epChroma + slot) * o.w) % addrSpace

/-! ### The descriptor register file -/

/-- The descriptor register at a word index, `offset / 4` (R21, R108). -/
def regOfWidx (i : BitVec 6) : Option Reg :=
  match i.toNat with
  | 2 => some .frameIndex
  | 3 => some .dstFormat
  | 4 => some .src0Lo
  | 5 => some .src0Hi
  | 6 => some .src1Lo
  | 7 => some .src1Hi
  | 8 => some .src2Lo
  | 9 => some .src2Hi
  | 10 => some .lumaWidth
  | 11 => some .lumaHeight
  | 12 => some .lumaStride
  | 13 => some .chromaWidth
  | 14 => some .chromaHeight
  | 15 => some .chromaStride
  | 16 => some .hLuma
  | 17 => some .hChroma
  | 18 => some .hYuv444
  | 19 => some .hRgb
  | _ => none

/-- The value of a descriptor register (R29). -/
def getReg (r : Regs) (n : Reg) : Word :=
  match n with
  | .frameIndex => r.frameIndex
  | .dstFormat => r.dstFormat
  | .src0Lo => r.src0Lo
  | .src0Hi => r.src0Hi
  | .src1Lo => r.src1Lo
  | .src1Hi => r.src1Hi
  | .src2Lo => r.src2Lo
  | .src2Hi => r.src2Hi
  | .lumaWidth => r.lumaWidth
  | .lumaHeight => r.lumaHeight
  | .lumaStride => r.lumaStride
  | .chromaWidth => r.chromaWidth
  | .chromaHeight => r.chromaHeight
  | .chromaStride => r.chromaStride
  | .hLuma => r.hLuma
  | .hChroma => r.hChroma
  | .hYuv444 => r.hYuv444
  | .hRgb => r.hRgb

/-- A write replaces all 32 bits of one descriptor register (R29, R182). -/
def setReg (r : Regs) (n : Reg) (v : Word) : Regs :=
  match n with
  | .frameIndex => { r with frameIndex := v }
  | .dstFormat => { r with dstFormat := v }
  | .src0Lo => { r with src0Lo := v }
  | .src0Hi => { r with src0Hi := v }
  | .src1Lo => { r with src1Lo := v }
  | .src1Hi => { r with src1Hi := v }
  | .src2Lo => { r with src2Lo := v }
  | .src2Hi => { r with src2Hi := v }
  | .lumaWidth => { r with lumaWidth := v }
  | .lumaHeight => { r with lumaHeight := v }
  | .lumaStride => { r with lumaStride := v }
  | .chromaWidth => { r with chromaWidth := v }
  | .chromaHeight => { r with chromaHeight := v }
  | .chromaStride => { r with chromaStride := v }
  | .hLuma => { r with hLuma := v }
  | .hChroma => { r with hChroma := v }
  | .hYuv444 => { r with hYuv444 := v }
  | .hRgb => { r with hRgb := v }

/-- The descriptor part of the context taken at acceptance, the held bits cleared (R41, R181 (a)); the
grants and the pending result keep what they held, and are dead until written (R43). -/
def snapshot (p : BitVec 4) (d : BitVec 8) (r : Regs) (old : Ctx) : Ctx :=
  { old with
    present := p, depth := d
    src0 := r.src0Hi ++ r.src0Lo, src1 := r.src1Hi ++ r.src1Lo, src2 := r.src2Hi ++ r.src2Lo
    lw := r.lumaWidth, lh := r.lumaHeight, ls := r.lumaStride
    cw := r.chromaWidth, ch := r.chromaHeight, cs := r.chromaStride
    hLuma := r.hLuma, hChroma := r.hChroma, hYuv444 := r.hYuv444, hRgb := r.hRgb
    frameIndex := r.frameIndex, dstFormat := r.dstFormat
    mainHeld := false, chromaHeld := false }

end Sys2Proof.Machine
end

