-- ==== Sys2Proof/Machine/Ops.lean ====
section
/-! DEFINITION. The named operations over memory and state that the meanings share: byte and sample access
(00_scope.md R8), ending an operation (41_frame_upload_coordinator.md R158) and accepting the next command
(42_host_and_lock_transactions.md R181), and the bookkeeping of the lock port (R184, R185). -/

namespace Sys2Proof.Machine

open Sys2Proof

/-! ### Memory -/

/-- What a byte that nothing has written reads as (DESIGN CHOICE, unsafe; notes/assumptions/5.md). -/
def unlistedByte : Byte := 0

/-- The canonical form of a memory: addresses strictly rising and below `2^AW`, no entry equal to what an
unlisted address reads as. -/
def Memory.wf (m : Memory) : Bool :=
  match m with
  | [] => true
  | (k, v) :: r =>
    decide (k < addrSpace) && decide (v ≠ unlistedByte) &&
      (match r with
       | [] => true
       | (k', _) :: _ => decide (k < k')) && Memory.wf r

/-- The byte at an address. -/
def readByte (m : Memory) (a : Nat) : Byte :=
  match m with
  | [] => unlistedByte
  | (k, v) :: r => if k = a then v else readByte r a

/-- `r` with the entry `(a, b)` put in front, unless it is one that is not listed. -/
def consCell (a : Nat) (b : Byte) (r : Memory) : Memory := if b = unlistedByte then r else (a, b) :: r

/-- Store a byte, keeping the canonical form. -/
def writeByte (m : Memory) (a : Nat) (b : Byte) : Memory :=
  match m with
  | [] => consCell a b []
  | (k, v) :: r =>
    if a < k then consCell a b ((k, v) :: r)
    else if a = k then consCell a b r
    else (k, v) :: writeByte r a b

/-- The byte addresses of a sample of `n` bytes at `a`: `a + i mod 2^AW` (R8). -/
def sampleAddrs (a n : Nat) : List Nat := (List.range n).map fun i => (a + i) % addrSpace

/-- `MemRead(a, n)`: the bytes in address order (R8, R60; notes/assumptions/18.md). -/
def memRead (m : Memory) (a n : Nat) : List Byte := (sampleAddrs a n).map (readByte m)

/-- `MemWrite(a, n, v)`: the bytes to consecutive addresses mod `2^AW` (R8, R60). -/
def memWrite (m : Memory) (a : Nat) (bs : List Byte) : Memory :=
  match bs with
  | [] => m
  | b :: r => memWrite (writeByte m (a % addrSpace) b) (a + 1) r

/-! ### Failure, completion, and the next command -/

/-- `finish(ok, cause)` (R158): STATUS published whole and the sequencer idle, nothing else changed. With
`ok = false` this is the block's exception entry (R212). -/
def finish (ok : Bool) (cause : Cause) (s : State) : State :=
  { s with status := statusFinished ok cause, phase := .idle }

/-- Acceptance of a legal CMD word (R181 (a)): the return from a failure or a success alike (R213). -/
def accept (v : Word) (s : State) : State :=
  { s with
    cmd := v
    ctx := snapshot (cmdPresent v) (cmdDepth v) s.regs s.ctx
    status := statusAccepted
    phase := .lockMain }

/-- An illegal CMD word in IDLE (R100, R181 (b)): recorded, and finished at once. -/
def rejectCommand (v : Word) (s : State) : State := finish false .illegalCmd { s with cmd := v }

/-- A CMD write, the three cases of R181. -/
def writeCommand (v : Word) (s : State) : State :=
  match s.phase with
  | .idle => if cmdLegal v then accept v s else rejectCommand v s
  | .lockMain => s
  | .lockChroma => s
  | .copy => s
  | .unlockChroma => s
  | .unlockMain => s

/-! ### The lock port -/

/-- The agent's record of a grant of `h` (R45, R184). -/
def agentGrant (h : Word) (base : Addr) (pitch : Word) (extent : Nat) (l : List HeldLock) : List HeldLock :=
  { handle := h, base := base, pitch := pitch, extent := extent } :: l

/-- The agent takes back the newest lock it granted on `h` (R185). -/
def agentRelease (h : Word) (l : List HeldLock) : List HeldLock :=
  match l with
  | [] => []
  | x :: r => if x.handle = h then r else x :: agentRelease h r

/-- One answered LOCK: the answer is used up, recorded, and on a grant the agent holds the lock (R184). -/
def lockAnswered (h : Word) (a : LockAnswer) (rest : List LockAnswer) (s : State) : State :=
  { s with
    answers := rest
    lockTrace := s.lockTrace ++ [.lock h a]
    agentLocks :=
      match a with
      | .grant b p e => agentGrant h b p e s.agentLocks
      | .deny => s.agentLocks }

/-- One acknowledged UNLOCK (R185). -/
def unlockAcked (h : Word) (s : State) : State :=
  { s with lockTrace := s.lockTrace ++ [.unlock h], agentLocks := agentRelease h s.agentLocks }

end Sys2Proof.Machine
end

