-- ==== Sys2Proof/Machine/Engine.lean ====
section
/-! DEFINITION. The ENGSEL family: the Plane Upload Engine's four specializations, each the whole COPY
phase. Spec: 40_plane_upload_engine.md R120 to R138; 41_frame_upload_coordinator.md R155; 20_memory.md R60,
R65 to R67, R71. -/

namespace Sys2Proof.Machine

open Sys2Proof

/-- One named sample copy: read at `src`, written at `dst` inside a window (R124 to R126). -/
structure CopyItem where
  src : Nat
  dst : Nat
  win : Window
  deriving DecidableEq, Repr

/-! ### The accesses the engine rules name -/

/-- The copy of lane `k` of packed texel `(x, y)` (R124). -/
def packedItem (o : EngOperands) (x y k : Nat) : CopyItem :=
  { src := srcAddr o k x y, dst := mainAddr o (4 * x + k) y, win := .main }

/-- The luma copy of position `(x, y)` (R125). -/
def lumaItem (o : EngOperands) (x y : Nat) : CopyItem :=
  { src := srcAddr o 0 x y, dst := mainAddr o x y, win := .main }

/-- The copy of lane `j` of the chroma pair of `(x, y)`, from channel `j + 1` (R126). -/
def chromaItem (o : EngOperands) (x y j : Nat) : CopyItem :=
  { src := srcAddr o (j + 1) x y, dst := chromaAddr o (2 * x + o.off + j) y, win := .chroma }

/-- The copies of one position of PACKED (R124). -/
def packedAt (o : EngOperands) (x y : Nat) : List CopyItem := (List.range 3).map (packedItem o x y)

/-- The copies of one position of SPLIT (R125, R126). -/
def splitAt (o : EngOperands) (x y : Nat) : List CopyItem :=
  lumaItem o x y :: if x < o.cw ∧ y < o.ch then (List.range 2).map (chromaItem o x y) else []

/-- Every position of the luma rectangle, rows outer, columns inner (R37). -/
def positions (o : EngOperands) (f : Nat → Nat → List CopyItem) : List CopyItem :=
  (List.range o.lh).flatMap fun y => (List.range o.lw).flatMap fun x => f x y

/-- Every access of the specialization with topology `t` (R124; R125 and R126). Each copy is one read and
one write, three copies to a position at most, as R67 counts; R250's bound of `5 * lw * lh` accesses is
smaller, and the model follows R67 (DEDUCED, unsafe; notes/assumptions/25.md). -/
def copyItems (t : Topology) (o : EngOperands) : List CopyItem :=
  match t with
  | .packed => positions o (packedAt o)
  | .split => positions o (splitAt o)

/-- The byte addresses the copies write. -/
def writtenAddrs (w : Nat) (l : List CopyItem) : List Nat := l.flatMap fun i => sampleAddrs i.dst w

/-- The byte addresses the copies read. -/
def readAddrs (w : Nat) (l : List CopyItem) : List Nat := l.flatMap fun i => sampleAddrs i.src w

/-! ### Windows (R42, R45, R249; U3) -/

/-- Whether the block holds the window and the byte address lies in it. -/
def inWindow (c : Ctx) (win : Window) (a : Nat) : Bool :=
  match win with
  | .main => c.mainHeld && decide (c.mainBase.toNat ≤ a ∧ a < c.mainBase.toNat + c.mainExtent)
  | .chroma => c.chromaHeld && decide (c.chromaBase.toNat ≤ a ∧ a < c.chromaBase.toNat + c.chromaExtent)

/-- Whether every byte the copies write lies in its window. -/
def allInWindow (c : Ctx) (w : Nat) (l : List CopyItem) : Bool :=
  l.all fun i => (sampleAddrs i.dst w).all (inWindow c i.win)

/-! ### Order of the accesses (R71) -/

/-- No address twice. -/
def distinctAddrs (l : List Nat) : Bool :=
  match l with
  | [] => true
  | a :: r => !r.contains a && distinctAddrs r

/-- No byte is written twice, and none is both read and written: then every order of the accesses leaves
the same memory (R71, R245). -/
def noOverlap (w : Nat) (l : List CopyItem) : Bool :=
  distinctAddrs (writtenAddrs w l) && (readAddrs w l).all fun a => !(writtenAddrs w l).contains a

/-- One sample copied byte for byte (R60, R65). -/
def copyItem (w : Nat) (m : Memory) (i : CopyItem) : Memory := memWrite m i.dst (memRead m i.src w)

/-- Every copy, in the order of the list. -/
def copyAll (w : Nat) (l : List CopyItem) (m : Memory) : Memory := l.foldl (copyItem w) m

/-- A copy not yet finished: its sample once read (R71 (a): the write comes after its own read). -/
structure PendingCopy where
  item : CopyItem
  data : Option (List Byte)
  deriving DecidableEq, Repr

/-- One access of the pending copies: the copy picked reads its sample, or writes the sample it has read
and is finished. -/
def accessPicked (w pick : Nat) (l : List PendingCopy) (m : Memory) : List PendingCopy × Memory :=
  match l[pick % l.length]? with
  | none => (l, m)
  | some q =>
    match q.data with
    | none => (l.set (pick % l.length) { q with data := some (memRead m q.item.src w) }, m)
    | some bs => (l.eraseIdx (pick % l.length), memWrite m q.item.dst bs)

/-- `n` accesses in the order the picks say. -/
def copyInOrder (w : Nat) (picks : Nat → Nat) (n : Nat) (l : List PendingCopy) (m : Memory) : Memory :=
  match n with
  | 0 => m
  | k + 1 =>
    let r := accessPicked w (picks k) l m
    copyInOrder w picks k r.1 r.2

/-- The memory one order of all the accesses leaves: each copy reads once and writes once. -/
def copyOrdered (w : Nat) (picks : Nat → Nat) (l : List CopyItem) (m : Memory) : Memory :=
  copyInOrder w picks (2 * l.length) (l.map fun i => { item := i, data := none }) m

/-- The memory after overlapping copies: each written byte is what some order of the accesses leaves
there, an order of its own (U6). -/
def copyFree (w draw : Nat) (l : List CopyItem) (m : Memory) : Memory :=
  (writtenAddrs w l).foldl
    (fun m' a => writeByte m' a (readByte (copyOrdered w (Config.freePick draw a) l m) a)) m

/-! ### The COPY phase (R155) -/

/-- The end of the COPY phase: success pending, on to the unlocks (R155). -/
def copyDone (s : State) : State :=
  { s with
    ctx := { s.ctx with pendOk := true, pendCause := .none }
    phase := if s.ctx.chromaHeld then .unlockChroma else .unlockMain }

/-- The COPY phase of a specialization: a write outside its window faults (U3; notes/assumptions/7.md);
otherwise every copy is performed, in row order when the order cannot matter and in a free order when
it can (notes/assumptions/4.md). -/
def runCopy (t : Topology) (w : Nat) (s : State) : Host.Outcome State Fault Refusal :=
  let l := copyItems t (engOperands t w s.ctx)
  if allInWindow s.ctx w l then
    if noOverlap w l then .next (copyDone { s with mem := copyAll w l s.mem })
    else .next (copyDone { s with mem := copyFree w s.draws l s.mem, draws := s.draws + 1 })
  else .fault .outOfWindow

/-- The engine runs in the COPY phase only (R155; notes/assumptions/15.md). -/
def inCopyPhase (s : State) (o : Host.Outcome State Fault Refusal) : Host.Outcome State Fault Refusal :=
  match s.phase with
  | .copy => o
  | .idle => .refused .wrongPhase
  | .lockMain => .refused .wrongPhase
  | .lockChroma => .refused .wrongPhase
  | .unlockChroma => .refused .wrongPhase
  | .unlockMain => .refused .wrongPhase

/-- ENG.SPLIT.1 (R132). -/
def execEngSplit1 (s : State) : Host.Outcome State Fault Refusal := inCopyPhase s (runCopy .split 1 s)

/-- ENG.SPLIT.2 (R133). -/
def execEngSplit2 (s : State) : Host.Outcome State Fault Refusal := inCopyPhase s (runCopy .split 2 s)

/-- ENG.PACKED.1 (R130). -/
def execEngPacked1 (s : State) : Host.Outcome State Fault Refusal := inCopyPhase s (runCopy .packed 1 s)

/-- ENG.PACKED.2 (R131). -/
def execEngPacked2 (s : State) : Host.Outcome State Fault Refusal := inCopyPhase s (runCopy .packed 2 s)

end Sys2Proof.Machine
end

