-- ==== Sys2Proof/Machine/LockPort.lean ====
section
/-! DEFINITION. The LOCKMSG family: LOCK and UNLOCK, each with what the block does on the answer. Spec:
42_host_and_lock_transactions.md R184, R185; 41_frame_upload_coordinator.md R152, R153, R156, R157. -/

namespace Sys2Proof.Machine

open Sys2Proof

/-- LOCK of the main surface, answered (R152). -/
def mainAnswered (h : Word) (a : LockAnswer) (rest : List LockAnswer) (s : State) : State :=
  match a with
  | .deny => finish false .mainLockDenied (lockAnswered h a rest s)
  | .grant b p e =>
    { lockAnswered h a rest s with
      ctx := { s.ctx with mainBase := b, mainPitch := p, mainExtent := e, mainHeld := true }
      phase := if single s.ctx.present then .copy else .lockChroma }

/-- LOCK of the chroma surface, answered (R153). -/
def chromaAnswered (h : Word) (a : LockAnswer) (rest : List LockAnswer) (s : State) : State :=
  match a with
  | .deny =>
    { lockAnswered h a rest s with
      ctx := { s.ctx with pendOk := false, pendCause := .chromaLockDenied }
      phase := .unlockMain }
  | .grant b p e =>
    { lockAnswered h a rest s with
      ctx := { s.ctx with chromaBase := b, chromaPitch := p, chromaExtent := e, chromaHeld := true }
      phase := .copy }

/-- LOCK (R184), in the two phases that issue it. With no answer in `answers` yet the block waits and
nothing changes (R184: "takes no other step until the answer arrives"; U15; notes/assumptions/3.md). -/
def execLock (h : Word) (s : State) : Host.Outcome State Fault Refusal :=
  match s.phase with
  | .lockMain =>
    match s.answers with
    | [] => .next s
    | a :: rest => .next (mainAnswered h a rest s)
  | .lockChroma =>
    match s.answers with
    | [] => .next s
    | a :: rest => .next (chromaAnswered h a rest s)
  | .idle => .refused .wrongPhase
  | .copy => .refused .wrongPhase
  | .unlockChroma => .refused .wrongPhase
  | .unlockMain => .refused .wrongPhase

/-- UNLOCK of the chroma surface, acknowledged (R156). -/
def chromaReleased (h : Word) (s : State) : State :=
  { unlockAcked h s with ctx := { s.ctx with chromaHeld := false }, phase := .unlockMain }

/-- UNLOCK of the main surface, acknowledged, and the end of the operation (R157). -/
def mainReleased (h : Word) (s : State) : State :=
  finish s.ctx.pendOk s.ctx.pendCause { unlockAcked h s with ctx := { s.ctx with mainHeld := false } }

/-- UNLOCK (R185), in the two phases that issue it. -/
def execUnlock (h : Word) (s : State) : Host.Outcome State Fault Refusal :=
  match s.phase with
  | .unlockChroma => .next (chromaReleased h s)
  | .unlockMain => .next (mainReleased h s)
  | .idle => .refused .wrongPhase
  | .lockMain => .refused .wrongPhase
  | .lockChroma => .refused .wrongPhase
  | .copy => .refused .wrongPhase

end Sys2Proof.Machine
end

