-- ==== Sys2Proof/Machine/Coordinator.lean ====
section
/-! DEFINITION. The CMD family: the sequencer's phases and the six upload commands. Spec:
41_frame_upload_coordinator.md R150 to R167; 42_host_and_lock_transactions.md R181. -/

namespace Sys2Proof.Machine

open Sys2Proof

/-- The instruction the block issues in its phase, if it issues one: a LOCK of a surface that is present
(R152, R153), the engine that ENGSEL names (R155), an UNLOCK (R156, R157). -/
def issued (s : State) : Option Instr :=
  match s.phase with
  | .idle => none
  | .lockMain =>
    if presentBit s.ctx.present (mainSel s.ctx.present) then some (.lock (mainHandle s.ctx)) else none
  | .lockChroma => if presentBit s.ctx.present .chroma then some (.lock s.ctx.hChroma) else none
  | .copy => some (decodeEngsel (engsel s.ctx.present s.ctx.depth))
  | .unlockChroma => some (.unlock s.ctx.hChroma)
  | .unlockMain => some (.unlock (mainHandle s.ctx))

/-- The block's step in a phase that issues nothing: the main surface is absent (R152), the chroma surface
is absent (R153), or the block is idle and has no step (R158). -/
def internalStep (s : State) : State :=
  match s.phase with
  | .lockMain => finish false .mainAbsent s
  | .lockChroma =>
    { s with ctx := { s.ctx with pendOk := false, pendCause := .chromaAbsent }, phase := .unlockMain }
  | .idle => s
  | .copy => s
  | .unlockChroma => s
  | .unlockMain => s

/-- The engine specialization a selector names (R99). -/
def execEngine (e : BitVec 2) (s : State) : Host.Outcome State Fault Refusal :=
  match e.getLsbD 1, e.getLsbD 0 with
  | false, false => execEngSplit1 s
  | false, true => execEngSplit2 s
  | true, false => execEngPacked1 s
  | true, true => execEngPacked2 s

/-- One step of the block inside an operation: the rule of its phase (R152 to R157). -/
def phaseStep (s : State) : Host.Outcome State Fault Refusal :=
  match s.phase with
  | .idle => .next s
  | .lockMain =>
    if presentBit s.ctx.present (mainSel s.ctx.present) then execLock (mainHandle s.ctx) s
    else .next (internalStep s)
  | .lockChroma =>
    if presentBit s.ctx.present .chroma then execLock s.ctx.hChroma s else .next (internalStep s)
  | .copy => execEngine (engsel s.ctx.present s.ctx.depth) s
  | .unlockChroma => execUnlock s.ctx.hChroma s
  | .unlockMain => execUnlock (mainHandle s.ctx) s

/-- At most `n` steps of the block. The phases form no cycle, so five end every operation whose requests
are answered (R166); one that waits for an answer stays where it is. -/
def runPhases (n : Nat) (s : State) : Host.Outcome State Fault Refusal :=
  match n with
  | 0 => .next s
  | k + 1 =>
    match phaseStep s with
    | .next t => runPhases k t
    | .fault r => .fault r
    | .refused r => .refused r

/-- An upload command, whole: its CMD word is written (R181), and if that starts an operation the block
runs it through its phases (R160 to R165; notes/assumptions/1.md). While another operation runs the word
is ignored (R181 (c)). -/
def runCommand (v : Word) (s : State) : Host.Outcome State Fault Refusal :=
  match s.phase with
  | .idle => runPhases 5 (writeCommand v s)
  | .lockMain => .next s
  | .lockChroma => .next s
  | .copy => .next s
  | .unlockChroma => .next s
  | .unlockMain => .next s

/-- UPL.DUAL.8 (R160): main surface luma, SPLIT, W = 1. -/
def execUplDual8 (pLuma pChroma : Bool) (depth : BitVec 8) (s : State) : Host.Outcome State Fault Refusal :=
  runCommand (cmdWord pLuma pChroma false false depth) s

/-- UPL.DUAL.16 (R161): main surface luma, SPLIT, W = 2. -/
def execUplDual16 (pLuma pChroma : Bool) (depth : BitVec 8) (s : State) : Host.Outcome State Fault Refusal :=
  runCommand (cmdWord pLuma pChroma false false depth) s

/-- UPL.YUV444.8 (R162): main surface yuv444, PACKED, W = 1. -/
def execUplYuv8 (pLuma pChroma pRgb : Bool) (depth : BitVec 8) (s : State) : Host.Outcome State Fault Refusal :=
  runCommand (cmdWord pLuma pChroma true pRgb depth) s

/-- UPL.YUV444.16 (R163): main surface yuv444, PACKED, W = 2. -/
def execUplYuv16 (pLuma pChroma pRgb : Bool) (depth : BitVec 8) (s : State) : Host.Outcome State Fault Refusal :=
  runCommand (cmdWord pLuma pChroma true pRgb depth) s

/-- UPL.RGB.8 (R164): main surface rgb, PACKED, W = 1. -/
def execUplRgb8 (pLuma pChroma : Bool) (depth : BitVec 8) (s : State) : Host.Outcome State Fault Refusal :=
  runCommand (cmdWord pLuma pChroma false true depth) s

/-- UPL.RGB.16 (R165): main surface rgb, PACKED, W = 2. -/
def execUplRgb16 (pLuma pChroma : Bool) (depth : BitVec 8) (s : State) : Host.Outcome State Fault Refusal :=
  runCommand (cmdWord pLuma pChroma false true depth) s

end Sys2Proof.Machine
end

