-- ==== Sys2Proof/Machine/Register.lean ====
section
/-! DEFINITION. The REGACC family: RD, WR.CMD, WR, WR.IGNORED. Spec: 42_host_and_lock_transactions.md R180
to R183. -/

namespace Sys2Proof.Machine

open Sys2Proof

/-- What a read of word index `i` returns (R180). -/
def readReg (s : State) (i : BitVec 6) : Word :=
  if i.toNat = 0 then s.cmd
  else if i.toNat = 1 then statusWord s.status
  else
    match regOfWidx i with
    | some r => getReg s.regs r
    | none => 0

/-- RD (R180): the value goes to the host; nothing of the block changes. -/
def execRd (widx : BitVec 6) (s : State) : Host.Outcome State Fault Refusal :=
  .next { s with hostReads := s.hostReads ++ [(widx, readReg s widx)] }

/-- WR.CMD, the doorbell (R181). -/
def execWrCmd (wdata : Word) (s : State) : Host.Outcome State Fault Refusal := .next (writeCommand wdata s)

/-- WR to a descriptor register (R182); an index that names none changes nothing (R183). -/
def execWr (widx : BitVec 6) (wdata : Word) (s : State) : Host.Outcome State Fault Refusal :=
  match regOfWidx widx with
  | some r => .next { s with regs := setReg s.regs r wdata }
  | none => .next s

/-- WR to STATUS or a reserved offset: ignored (R183). -/
def execWrIgnored (_widx : BitVec 6) (_wdata : Word) (s : State) : Host.Outcome State Fault Refusal := .next s

end Sys2Proof.Machine
end

