-- ==== Sys2Proof/Machine/Dispatch.lean ====
section
/-! DEFINITION. The dispatch: one meaning per constructor of `Instr`. -/

namespace Sys2Proof.Machine

open Sys2Proof

def exec (i : Instr) (s : State) : Host.Outcome State Fault Refusal :=
  match i with
  | .uplDual8 pLuma pChroma depth => Sys2Proof.Machine.execUplDual8 pLuma pChroma depth s
  | .uplDual16 pLuma pChroma depth => Sys2Proof.Machine.execUplDual16 pLuma pChroma depth s
  | .uplYuv8 pLuma pChroma pRgb depth => Sys2Proof.Machine.execUplYuv8 pLuma pChroma pRgb depth s
  | .uplYuv16 pLuma pChroma pRgb depth => Sys2Proof.Machine.execUplYuv16 pLuma pChroma pRgb depth s
  | .uplRgb8 pLuma pChroma depth => Sys2Proof.Machine.execUplRgb8 pLuma pChroma depth s
  | .uplRgb16 pLuma pChroma depth => Sys2Proof.Machine.execUplRgb16 pLuma pChroma depth s
  | .engSplit1 => Sys2Proof.Machine.execEngSplit1 s
  | .engSplit2 => Sys2Proof.Machine.execEngSplit2 s
  | .engPacked1 => Sys2Proof.Machine.execEngPacked1 s
  | .engPacked2 => Sys2Proof.Machine.execEngPacked2 s
  | .lock handle => Sys2Proof.Machine.execLock handle s
  | .unlock handle => Sys2Proof.Machine.execUnlock handle s
  | .rd widx => Sys2Proof.Machine.execRd widx s
  | .wrCmd wdata => Sys2Proof.Machine.execWrCmd wdata s
  | .wr widx wdata => Sys2Proof.Machine.execWr widx wdata s
  | .wrIgnored widx wdata => Sys2Proof.Machine.execWrIgnored widx wdata s

end Sys2Proof.Machine
end

