-- ==== Sys2Proof/Machine/Environment.lean ====
section
/-! DEFINITION. What reaches the block next: the message of the agent whose turn it is, and the turns that
carry no message (reset, a host store). Spec: 00_scope.md R10; 60_exceptions.md R211;
70_reset_and_hazards.md R230, R231, R241. -/

namespace Sys2Proof.Machine

open Sys2Proof

/-- The message that moves the machine next, and the state with its turn used up: a host access of
`turns`, or what the block issues when it is the block's turn or nobody else's (R10, R250 (b)). -/
def fetch (s : State) : Option (PortWord × State) :=
  match s.turns with
  | [] => (issued s).map fun i => (encode i, s)
  | .block :: r => (issued s).map fun i => (encode i, { s with turns := r })
  | .read w :: r => some (.regRead w, { s with turns := r })
  | .write w :: r => some (.regWrite w, { s with turns := r })
  | .command w :: r => some (.cmd w, { s with turns := r })
  | .reset :: _ => none
  | .store _ _ :: _ => none

/-- What a message that is no instruction does: an illegal CMD word is still a CMD write, which finishes
with ILLEGAL_CMD or is ignored while BUSY (R100, R181 (b), (c)); a REGACC word whose rw bit contradicts its
length has no meaning (R180; notes/assumptions/19.md). -/
def undecoded (p : PortWord) (s : State) : Host.Outcome State Fault Refusal :=
  match p with
  | .cmd v => .next (writeCommand v s)
  | .engsel _ => .refused .malformedAccess
  | .lockmsg _ => .refused .malformedAccess
  | .regRead _ => .refused .malformedAccess
  | .regWrite _ => .refused .malformedAccess

/-- The reset input (R50, R230): registers, STATUS, phase and context as after reset; memory, the lock
agent, the inputs and the observations untouched. While BUSY it is given no meaning (R231, U7). -/
def resetInput (s : State) : Host.Outcome State Fault Refusal :=
  match s.phase with
  | .idle =>
    .next
      { s with
        regs := Regs.zero, cmd := 0, status := Status.zero, phase := .idle, ctx := Ctx.zero }
  | .lockMain => .refused .resetWhileBusy
  | .lockChroma => .refused .resetWhileBusy
  | .copy => .refused .resetWhileBusy
  | .unlockChroma => .refused .resetWhileBusy
  | .unlockMain => .refused .resetWhileBusy

/-- Every access of the operation in `ctx` (R155). -/
def operationItems (c : Ctx) : List CopyItem :=
  copyItems (topology c.present) (engOperands (topology c.present) (sampleWidth c.depth) c)

/-- Whether a byte address lies in a source region of the operation or in a window the block holds
(R70, R241). The chroma window is guarded until its UNLOCK and not, as R241 says, until `finish`
(DESIGN CHOICE, unsafe; notes/assumptions/8.md). -/
def reservedByte (c : Ctx) (a : Nat) : Bool :=
  inWindow c .main a || inWindow c .chroma a ||
    (readAddrs (sampleWidth c.depth) (operationItems c)).contains a

/-- A host store (R44); one that races with the running operation is given no meaning (R241, U5;
notes/assumptions/8.md). -/
def hostStore (a : Addr) (b : Byte) (s : State) : Host.Outcome State Fault Refusal :=
  if s.phase ≠ .idle ∧ reservedByte s.ctx a.toNat = true then .refused .racingStore
  else .next { s with mem := writeByte s.mem a.toNat b }

/-- A turn with no message. -/
def silentTurn (s : State) : Host.Outcome State Fault Refusal :=
  match s.turns with
  | .reset :: r => resetInput { s with turns := r }
  | .store a b :: r => hostStore a b { s with turns := r }
  | .block :: r => .next (internalStep { s with turns := r })
  | .read _ :: _ => .next s
  | .write _ :: _ => .next s
  | .command _ :: _ => .next s
  | [] => .next (internalStep s)

end Sys2Proof.Machine
end

