-- ==== Sys2Proof/Machine/Step.lean ====
section
/-! DEFINITION. One step of the machine, and the host's way to place an instruction where the next step
fetches it. -/

namespace Sys2Proof.Machine

open Sys2Proof

/-- One step: the message of the agent whose turn it is, decoded and executed; a turn without a message
otherwise. -/
def step (s : State) : Host.Outcome State Fault Refusal :=
  match fetch s with
  | none => silentTurn s
  | some (p, t) =>
    match decode p with
    | .ok i => exec i t
    | .error _ => undecoded p t

/-- `s` with the message `p` placed where the next step fetches it (notes/assumptions/16.md). A host
message becomes the next turn. The block issues the other formats itself, so for those the sequencer is
put in a phase that issues exactly that message: COPY in a mode with that ENGSEL, LOCK_MAIN or UNLOCK_MAIN
with that handle as the main one. -/
def State.withPortWord (s : State) (p : PortWord) : State :=
  match p with
  | .cmd v => { s with turns := .command v :: s.turns }
  | .regRead v => { s with turns := .read v :: s.turns }
  | .regWrite v => { s with turns := .write v :: s.turns }
  | .engsel e =>
    { s with
      turns := .block :: s.turns
      status := statusAccepted
      phase := .copy
      ctx := { s.ctx with
        present := if e.getLsbD 1 then 0b0100#4 else 0b0011#4
        depth := if e.getLsbD 0 then 16#8 else 8#8 } }
  | .lockmsg v =>
    { s with
      turns := .block :: s.turns
      status := statusAccepted
      phase := if v.getLsbD 32 then .unlockMain else .lockMain
      ctx := { s.ctx with present := 0b0100#4, hYuv444 := v.extractLsb' 0 32 } }

/-- `s` with the table word `w` of `nbits` bits placed where the next step fetches it; a value that is no
message of a format leaves `s` as it is. -/
def State.withFetchWord (s : State) (nbits w : Nat) : State :=
  match frameTableWord nbits w with
  | .ok p => s.withPortWord p
  | .error _ => s

end Sys2Proof.Machine
end

