-- ==== Sys2Proof/Safety.lean ====
section
/-! DEFINITION. What a safe run is: the contract of the host and the lock agent (42 R186, R187; 70 R240 to
R249), and the invariant of the machine (10_state.md R33 to R36, R42; 41 R155 to R159; 20_memory.md R75). -/

namespace Sys2Proof.Machine

open Sys2Proof

/-! ### The contract -/

/-- A byte address lies in the window of a grant (R45). -/
abbrev windowHas (base : Addr) (extent a : Nat) : Prop := base.toNat ≤ a ∧ a < base.toNat + extent

/-- R186, luma row: main surface of SPLIT. -/
abbrev lumaGrantOk (w lw lh : Nat) (base : Addr) (pitch : Word) (extent : Nat) : Prop :=
  pitch.toNat % w = 0 ∧ lw * w ≤ pitch.toNat ∧
  (0 < lw → 0 < lh → (lh - 1) * pitch.toNat + lw * w ≤ extent) ∧ base.toNat + extent ≤ addrSpace

/-- R186, yuv444 / rgb row: main surface of PACKED. -/
abbrev packedGrantOk (w lw lh : Nat) (base : Addr) (pitch : Word) (extent : Nat) : Prop :=
  pitch.toNat % w = 0 ∧ 4 * lw * w ≤ pitch.toNat ∧
  (0 < lw → 0 < lh → (lh - 1) * pitch.toNat + (4 * lw - 1) * w ≤ extent) ∧ base.toNat + extent ≤ addrSpace

/-- R186, chroma row, with `m = min(cw, lw)` and `n = min(ch, lh)`. -/
abbrev chromaGrantOk (w off m n : Nat) (base : Addr) (pitch : Word) (extent : Nat) : Prop :=
  pitch.toNat % w = 0 ∧ 2 * m * w ≤ pitch.toNat ∧
  (0 < m → 0 < n → (n - 1) * pitch.toNat + (2 * m + off) * w ≤ extent) ∧ base.toNat + extent ≤ addrSpace

/-- Two windows share no byte (R245). -/
abbrev windowsApart (b1 : Addr) (e1 : Nat) (b2 : Addr) (e2 : Nat) : Prop :=
  e1 = 0 ∨ e2 = 0 ∨ b1.toNat + e1 ≤ b2.toNat ∨ b2.toNat + e2 ≤ b1.toNat

/-- The bytes a specialization reads (R67, R70). -/
abbrev sourceBytes (t : Topology) (w : Nat) (c : Ctx) : List Nat := readAddrs w (copyItems t (engOperands t w c))

/-- The contract of a COPY phase in PACKED: the main lock held, its grant as R186 asks, and no source byte
in its window (R245). -/
abbrev packedContract (w : Nat) (c : Ctx) : Prop :=
  c.mainHeld = true ∧ packedGrantOk w c.lw.toNat c.lh.toNat c.mainBase c.mainPitch c.mainExtent ∧
  ∀ a ∈ sourceBytes .packed w c, ¬ windowHas c.mainBase c.mainExtent a

/-- The contract of a COPY phase in SPLIT: both locks held, both grants as R186 asks, the windows apart,
and no source byte in either (R245). -/
abbrev splitContract (w : Nat) (c : Ctx) : Prop :=
  c.mainHeld = true ∧ c.chromaHeld = true ∧
  lumaGrantOk w c.lw.toNat c.lh.toNat c.mainBase c.mainPitch c.mainExtent ∧
  chromaGrantOk w (chromaOffset w) (min c.cw.toNat c.lw.toNat) (min c.ch.toNat c.lh.toNat)
    c.chromaBase c.chromaPitch c.chromaExtent ∧
  windowsApart c.mainBase c.mainExtent c.chromaBase c.chromaExtent ∧
  ∀ a ∈ sourceBytes .split w c,
    ¬ windowHas c.mainBase c.mainExtent a ∧ ¬ windowHas c.chromaBase c.chromaExtent a

/-- The copies of a specialization stay in the windows held and no two of their accesses meet in a byte: the
condition under which every access order leaves the same memory (R71, R249). -/
abbrev copiesApart (t : Topology) (w : Nat) (c : Ctx) : Prop :=
  allInWindow c w (copyItems t (engOperands t w c)) = true ∧ noOverlap w (copyItems t (engOperands t w c)) = true

/-- The context an accepted command takes, with the main grant it then receives (R41, R152). -/
def ctxMainGranted (v : Word) (s : State) (b : Addr) (p : Word) (e : Nat) : Ctx :=
  { snapshot (cmdPresent v) (cmdDepth v) s.regs s.ctx with
    mainBase := b, mainPitch := p, mainExtent := e, mainHeld := true }

/-- The same with the chroma grant (R153). -/
def ctxBothGranted (v : Word) (s : State) (b : Addr) (p : Word) (e : Nat) (b' : Addr) (p' : Word) (e' : Nat) :
    Ctx :=
  { ctxMainGranted v s b p e with
    chromaBase := b', chromaPitch := p', chromaExtent := e', chromaHeld := true }

/-- The outcome is no fault and no refusal. -/
def completes (o : Host.Outcome State Fault Refusal) : Prop := ∃ t, o = .next t

/-! ### What a copy leaves (R124 to R126, in the words of R130 to R133) -/

/-- `m'` is `m` with lanes 0, 1, 2 of every packed texel copied from the channels at `c0`, `c1`, `c2`, and
every other byte as it was (R124). -/
def packedCopied (w lw lh c0 c1 c2 es0 es1 base ep : Nat) (m m' : Memory) : Prop :=
  (∀ x y i, x < lw → y < lh → i < w →
    readByte m' ((base + (y * ep + 4 * x) * w + i) % addrSpace) =
      readByte m ((c0 + (y * es0 + x) * w + i) % addrSpace) ∧
    readByte m' ((base + (y * ep + (4 * x + 1)) * w + i) % addrSpace) =
      readByte m ((c1 + (y * es1 + x) * w + i) % addrSpace) ∧
    readByte m' ((base + (y * ep + (4 * x + 2)) * w + i) % addrSpace) =
      readByte m ((c2 + (y * es1 + x) * w + i) % addrSpace)) ∧
  (∀ a, (∀ x y k i, x < lw → y < lh → k < 3 → i < w →
      a ≠ (base + (y * ep + (4 * x + k)) * w + i) % addrSpace) →
    readByte m' a = readByte m a)

/-- `m'` is `m` with every luma position copied from channel 0 and, inside the chroma bound, the pair of
slots `2x + off`, `2x + off + 1` from channels 1 and 2, and every other byte as it was (R125, R126). -/
def splitCopied (w off lw lh cw ch c0 c1 c2 es0 es1 base ep cbase cep : Nat) (m m' : Memory) : Prop :=
  (∀ x y i, x < lw → y < lh → i < w →
    readByte m' ((base + (y * ep + x) * w + i) % addrSpace) =
      readByte m ((c0 + (y * es0 + x) * w + i) % addrSpace)) ∧
  (∀ x y i, x < lw → y < lh → x < cw → y < ch → i < w →
    readByte m' ((cbase + (y * cep + (2 * x + off)) * w + i) % addrSpace) =
      readByte m ((c1 + (y * es1 + x) * w + i) % addrSpace) ∧
    readByte m' ((cbase + (y * cep + (2 * x + off + 1)) * w + i) % addrSpace) =
      readByte m ((c2 + (y * es1 + x) * w + i) % addrSpace)) ∧
  (∀ a, (∀ x y i, x < lw → y < lh → i < w → a ≠ (base + (y * ep + x) * w + i) % addrSpace) →
    (∀ x y j i, x < lw → y < lh → x < cw → y < ch → j < 2 → i < w →
      a ≠ (cbase + (y * cep + (2 * x + off + j)) * w + i) % addrSpace) →
    readByte m' a = readByte m a)

/-- SRC0, SRC1, SRC2 as the registers hold them (R22). -/
def regSrc0 (r : Regs) : Nat := (r.src0Hi ++ r.src0Lo).toNat

/-- SRC1 (R22). -/
def regSrc1 (r : Regs) : Nat := (r.src1Hi ++ r.src1Lo).toNat

/-- SRC2 (R22). -/
def regSrc2 (r : Regs) : Nat := (r.src2Hi ++ r.src2Lo).toNat

/-! ### The invariant -/

/-- STATUS and `phase` agree, and STATUS is one of its legal values (R33 to R36). -/
abbrev statusInv (s : State) : Prop :=
  (s.status.busy = true ↔ s.phase ≠ .idle) ∧
  (s.status.done = false → s.status.success = false ∧ s.status.cause = .none) ∧
  (s.status.done = true → s.status.busy = false ∧ (s.status.success = true ↔ s.status.cause = .none))

/-- Which locks are held in which phase (R42, R153, R155 to R158). -/
abbrev heldInv (s : State) : Prop :=
  (s.phase = .idle → s.ctx.mainHeld = false ∧ s.ctx.chromaHeld = false) ∧
  (s.phase = .lockMain → s.ctx.mainHeld = false ∧ s.ctx.chromaHeld = false) ∧
  (s.phase = .lockChroma → s.ctx.mainHeld = true ∧ s.ctx.chromaHeld = false ∧ single s.ctx.present = false) ∧
  (s.phase = .copy → s.ctx.mainHeld = true ∧ s.ctx.chromaHeld = !single s.ctx.present) ∧
  (s.phase = .unlockChroma → s.ctx.mainHeld = true ∧ s.ctx.chromaHeld = true) ∧
  (s.phase = .unlockMain → s.ctx.mainHeld = true ∧ s.ctx.chromaHeld = false)

/-- The pending result while unlocking: success exactly when no cause is pending (R153, R155, R158). -/
abbrev pendInv (s : State) : Prop :=
  (s.phase = .unlockChroma → s.ctx.pendOk = true ∧ s.ctx.pendCause = .none) ∧
  (s.phase = .unlockMain → (s.ctx.pendOk = true ↔ s.ctx.pendCause = .none))

/-- The locks the context says are held, newest first. -/
def ctxLocks (c : Ctx) : List HeldLock :=
  (if c.chromaHeld then
    [{ handle := c.hChroma, base := c.chromaBase, pitch := c.chromaPitch, extent := c.chromaExtent }] else []) ++
  (if c.mainHeld then
    [{ handle := mainHandle c, base := c.mainBase, pitch := c.mainPitch, extent := c.mainExtent }] else [])

/-- Granted locks in a trace. -/
def grantsIn (l : List LockEvent) : Nat :=
  match l with
  | [] => 0
  | .lock _ (.grant _ _ _) :: r => grantsIn r + 1
  | .lock _ .deny :: r => grantsIn r
  | .unlock _ :: r => grantsIn r

/-- Releases in a trace. -/
def unlocksIn (l : List LockEvent) : Nat :=
  match l with
  | [] => 0
  | .lock _ _ :: r => unlocksIn r
  | .unlock _ :: r => unlocksIn r + 1

/-- The lock agent's record is what the context says is held, and every grant in the trace is released or
still held (R42, R45, R75). -/
abbrev agentInv (s : State) : Prop :=
  s.agentLocks = ctxLocks s.ctx ∧ grantsIn s.lockTrace = unlocksIn s.lockTrace + s.agentLocks.length

/-- The invariant every step keeps. -/
abbrev StateInv (s : State) : Prop :=
  statusInv s ∧ heldInv s ∧ pendInv s ∧ agentInv s ∧ Memory.wf s.mem = true

end Sys2Proof.Machine
end

