-- ==== Sys2Proof/Certificates/Slice0/Obligations.lean ====
section
/-! DEFINITION. The statements for the provers, each citing the rules of spec/ it formalises. -/

section

open Sys2Proof Sys2Proof.Machine

/-! ### Reset -/

/-- R50: after reset every register of the block reads 0 (CMD, STATUS, the descriptor registers; the
reserved offsets read 0 too), the phase is IDLE and no lock is held; and the reset input puts an idle
machine in that state, touching neither memory nor the lock port nor the lock agent; after it the block
takes no step until the host moves. -/
def Obligations.ResetClearsRegistersOnly : Prop :=
  (∀ w : BitVec 6, readReg State.reset w = 0) ∧ State.reset.phase = .idle ∧
  State.reset.ctx.mainHeld = false ∧ State.reset.ctx.chromaHeld = false ∧
  ∀ (s : State) (r : List Turn), s.turns = .reset :: r → s.phase = .idle →
    ∃ t, step s = .next t ∧ (∀ w : BitVec 6, readReg t w = 0) ∧ t.phase = .idle ∧
      t.ctx.mainHeld = false ∧ t.ctx.chromaHeld = false ∧
      t.mem = s.mem ∧ t.agentLocks = s.agentLocks ∧ t.lockTrace = s.lockTrace ∧ t.answers = s.answers ∧
      t.hostReads = s.hostReads ∧ t.draws = s.draws ∧ t.turns = r ∧
      (r = [] → step t = .next t)

/-- The model's treatment of U7 (R231: "A model should give such a run no meaning"; notes/assumptions/9.md):
reset while BUSY is refused by name. -/
def Obligations.ResetWhileBusyRefused : Prop :=
  ∀ (s : State) (r : List Turn), s.turns = .reset :: r → s.phase ≠ .idle →
    step s = .refused .resetWhileBusy

/-! ### Fetching and decoding -/

/-- A step executes the decoded message of the agent whose turn it is, with that turn used up: a host
access, or what the block issues on its own turn or when no turn is left. -/
def Obligations.StepExecutesTheDecodedMessage : Prop :=
  (∀ (s : State) (w : BitVec 7) (r : List Turn) (i : Instr), s.turns = .read w :: r →
    decode (.regRead w) = .ok i → step s = exec i { s with turns := r }) ∧
  (∀ (s : State) (w : BitVec 39) (r : List Turn) (i : Instr), s.turns = .write w :: r →
    decode (.regWrite w) = .ok i → step s = exec i { s with turns := r }) ∧
  (∀ (s : State) (w : BitVec 32) (r : List Turn) (i : Instr), s.turns = .command w :: r →
    decode (.cmd w) = .ok i → step s = exec i { s with turns := r }) ∧
  (∀ (s : State) (r : List Turn) (i : Instr), s.turns = .block :: r → issued s = some i →
    step s = exec i { s with turns := r }) ∧
  (∀ (s : State) (i : Instr), s.turns = [] → issued s = some i → step s = exec i s)

/-- What the block issues, phase by phase (R152, R153, R155 to R157): a LOCK only of a surface whose PRESENT
bit is 1, the specialization `{single, W == 2}`, an UNLOCK. -/
def Obligations.IssuedByPhase : Prop :=
  ∀ s : State,
    (s.phase = .idle → issued s = none) ∧
    (s.phase = .lockMain → s.ctx.present.getLsbD 2 = true → issued s = some (.lock s.ctx.hYuv444)) ∧
    (s.phase = .lockMain → s.ctx.present.getLsbD 2 = false → s.ctx.present.getLsbD 3 = true →
      issued s = some (.lock s.ctx.hRgb)) ∧
    (s.phase = .lockMain → s.ctx.present.getLsbD 2 = false → s.ctx.present.getLsbD 3 = false →
      issued s = if s.ctx.present.getLsbD 0 = true then some (.lock s.ctx.hLuma) else none) ∧
    (s.phase = .lockChroma →
      issued s = if s.ctx.present.getLsbD 1 = true then some (.lock s.ctx.hChroma) else none) ∧
    (s.phase = .copy → issued s = some
      (if s.ctx.present.getLsbD 2 = true ∨ s.ctx.present.getLsbD 3 = true then
        (if s.ctx.depth.toNat ≤ 8 then .engPacked1 else .engPacked2)
      else (if s.ctx.depth.toNat ≤ 8 then .engSplit1 else .engSplit2))) ∧
    (s.phase = .unlockChroma → issued s = some (.unlock s.ctx.hChroma)) ∧
    (s.phase = .unlockMain → issued s = some (.unlock (mainHandle s.ctx)))

/-- Words written out from the spec's formats decode to the instruction they stand for (95 V20 to V38;
R99, R105, R108). -/
def Obligations.SpecWordsDecode : Prop :=
  decode (.cmd 0x00000803#32) = .ok (.uplDual8 true true 8) ∧
  decode (.cmd 0x00000A03#32) = .ok (.uplDual16 true true 10) ∧
  decode (.cmd 0x0000080F#32) = .ok (.uplYuv8 true true true 8) ∧
  decode (.cmd 0x0000100C#32) = .ok (.uplYuv16 false false true 16) ∧
  decode (.cmd 0x00000808#32) = .ok (.uplRgb8 false false 8) ∧
  decode (.cmd 0x0000FF08#32) = .ok (.uplRgb16 false false 255) ∧
  decode (.cmd 0x00010808#32) = .error .reservedBits ∧
  decode (.engsel 0b10#2) = .ok .engPacked1 ∧
  decode (.engsel 0b01#2) = .ok .engSplit2 ∧
  decode (.lockmsg 0x0000000A3#33) = .ok (.lock 0xA3) ∧
  decode (.lockmsg 0x1000000A3#33) = .ok (.unlock 0xA3) ∧
  decode (.regRead 0x01#7) = .ok (.rd 1) ∧
  decode (.regWrite 0x4000000808#39) = .ok (.wrCmd 0x808) ∧
  decode (.regWrite 0x4A00000780#39) = .ok (.wr 10 0x780) ∧
  decode (.regWrite 0x54FFFFFFFF#39) = .ok (.wrIgnored 20 0xFFFFFFFF)

/-- Decoding the encoding of a well-formed instruction gives it back, for all sixteen rows and every
operand value the encoding admits. -/
def Obligations.DecodeEncodeRoundTrip : Prop :=
  ∀ i : Instr, i.wf = true → decode (encode i) = .ok i

/-- A message that decodes has one meaning: the instruction is well-formed and its encoding is the
message, so no bit of a message is ignored. -/
def Obligations.DecodedMessageEncodesBack : Prop :=
  ∀ (p : PortWord) (i : Instr), decode p = .ok i → i.wf = true ∧ encode i = p

/-- R101: the six commands by mask, match and DEPTH, with their main surface and engine selector, and that
they cover exactly the words whose reserved bits are 0. -/
def Obligations.SixCommandsPartitionLegalWords : Prop :=
  ∀ v : BitVec 32,
    ((v &&& 0xFFFF00FC#32 = 0#32 ∧ (v.extractLsb' 8 8).toNat ≤ 8) ↔
      ∃ pl pc d, decode (.cmd v) = .ok (.uplDual8 pl pc d) ∧
        mainSel (v.extractLsb' 0 4) = .luma ∧ engsel (v.extractLsb' 0 4) (v.extractLsb' 8 8) = 0b00#2) ∧
    ((v &&& 0xFFFF00FC#32 = 0#32 ∧ 8 < (v.extractLsb' 8 8).toNat) ↔
      ∃ pl pc d, decode (.cmd v) = .ok (.uplDual16 pl pc d) ∧
        mainSel (v.extractLsb' 0 4) = .luma ∧ engsel (v.extractLsb' 0 4) (v.extractLsb' 8 8) = 0b01#2) ∧
    ((v &&& 0xFFFF00F4#32 = 0x4#32 ∧ (v.extractLsb' 8 8).toNat ≤ 8) ↔
      ∃ pl pc pr d, decode (.cmd v) = .ok (.uplYuv8 pl pc pr d) ∧
        mainSel (v.extractLsb' 0 4) = .yuv444 ∧ engsel (v.extractLsb' 0 4) (v.extractLsb' 8 8) = 0b10#2) ∧
    ((v &&& 0xFFFF00F4#32 = 0x4#32 ∧ 8 < (v.extractLsb' 8 8).toNat) ↔
      ∃ pl pc pr d, decode (.cmd v) = .ok (.uplYuv16 pl pc pr d) ∧
        mainSel (v.extractLsb' 0 4) = .yuv444 ∧ engsel (v.extractLsb' 0 4) (v.extractLsb' 8 8) = 0b11#2) ∧
    ((v &&& 0xFFFF00FC#32 = 0x8#32 ∧ (v.extractLsb' 8 8).toNat ≤ 8) ↔
      ∃ pl pc d, decode (.cmd v) = .ok (.uplRgb8 pl pc d) ∧
        mainSel (v.extractLsb' 0 4) = .rgb ∧ engsel (v.extractLsb' 0 4) (v.extractLsb' 8 8) = 0b10#2) ∧
    ((v &&& 0xFFFF00FC#32 = 0x8#32 ∧ 8 < (v.extractLsb' 8 8).toNat) ↔
      ∃ pl pc d, decode (.cmd v) = .ok (.uplRgb16 pl pc d) ∧
        mainSel (v.extractLsb' 0 4) = .rgb ∧ engsel (v.extractLsb' 0 4) (v.extractLsb' 8 8) = 0b11#2) ∧
    (v &&& 0xFFFF00F0#32 = 0#32 ↔ ∃ i, decode (.cmd v) = .ok i)

/-- R94, R95, R97, R98, R99: the mode decode, from PRESENT and DEPTH alone. The channel map is the table of
R97: planes of channels 0, 1, 2. -/
def Obligations.ModeDecodeTable : Prop :=
  (∀ d : BitVec 8, sampleWidth d = if d.toNat ≤ 8 then 1 else 2) ∧
  (∀ p : BitVec 4, single p = (p.getLsbD 2 || p.getLsbD 3)) ∧
  (∀ p : BitVec 4, mainSel p =
    if p.getLsbD 2 = true then .yuv444 else if p.getLsbD 3 = true then .rgb else .luma) ∧
  (∀ p : BitVec 4, topology p = if single p = true then .packed else .split) ∧
  (∀ (p : BitVec 4) (d : BitVec 8), engsel p d =
    if single p = true then (if d.toNat ≤ 8 then 0b10#2 else 0b11#2)
    else (if d.toNat ≤ 8 then 0b00#2 else 0b01#2)) ∧
  [channelPlane .packed 2 0, channelPlane .packed 2 1, channelPlane .packed 2 2] = [0, 1, 2] ∧
  [channelPlane .packed 1 0, channelPlane .packed 1 1, channelPlane .packed 1 2] = [2, 1, 0] ∧
  [channelPlane .split 2 0, channelPlane .split 2 1, channelPlane .split 2 2] = [0, 1, 2] ∧
  [channelPlane .split 1 0, channelPlane .split 1 1, channelPlane .split 1 2] = [0, 2, 1] ∧
  chromaOffset 1 = 1 ∧ chromaOffset 2 = 0

/-! ### Register transactions -/

/-- R180: what RD returns at each offset, and that it changes nothing but the host's record of it. -/
def Obligations.RegisterReadReturnsAndChangesNothing : Prop :=
  ∀ (w : BitVec 6) (s : State),
    exec (.rd w) s = .next { s with hostReads := s.hostReads ++ [(w, readReg s w)] } ∧
    (w = 0 → readReg s w = s.cmd) ∧
    (w = 1 → readReg s w =
      0#24 ++ causeCode s.status.cause ++ 0#1 ++ BitVec.ofBool s.status.success ++
        BitVec.ofBool s.status.done ++ BitVec.ofBool s.status.busy) ∧
    (w = 2 → readReg s w = s.regs.frameIndex) ∧ (w = 3 → readReg s w = s.regs.dstFormat) ∧
    (w = 4 → readReg s w = s.regs.src0Lo) ∧ (w = 5 → readReg s w = s.regs.src0Hi) ∧
    (w = 6 → readReg s w = s.regs.src1Lo) ∧ (w = 7 → readReg s w = s.regs.src1Hi) ∧
    (w = 8 → readReg s w = s.regs.src2Lo) ∧ (w = 9 → readReg s w = s.regs.src2Hi) ∧
    (w = 10 → readReg s w = s.regs.lumaWidth) ∧ (w = 11 → readReg s w = s.regs.lumaHeight) ∧
    (w = 12 → readReg s w = s.regs.lumaStride) ∧ (w = 13 → readReg s w = s.regs.chromaWidth) ∧
    (w = 14 → readReg s w = s.regs.chromaHeight) ∧ (w = 15 → readReg s w = s.regs.chromaStride) ∧
    (w = 16 → readReg s w = s.regs.hLuma) ∧ (w = 17 → readReg s w = s.regs.hChroma) ∧
    (w = 18 → readReg s w = s.regs.hYuv444) ∧ (w = 19 → readReg s w = s.regs.hRgb) ∧
    (20 ≤ w.toNat → readReg s w = 0)

/-- R182: a write to a descriptor register replaces all 32 bits of that register, in any phase, and
changes no other register and nothing else of the state. -/
def Obligations.DescriptorWriteReplacesOneRegister : Prop :=
  ∀ (w : BitVec 6) (v : Word) (s : State), 2 ≤ w.toNat → w.toNat ≤ 19 →
    ∃ t, exec (.wr w v) s = .next t ∧
      (∀ u : BitVec 6, readReg t u = if u = w then v else readReg s u) ∧
      t = { s with regs := t.regs }

/-- R183: a write to STATUS or a reserved offset changes nothing, also through the decoder: every 39-bit
write message with such an index. -/
def Obligations.IgnoredWriteChangesNothing : Prop :=
  (∀ (w : BitVec 6) (v : Word) (s : State), exec (.wrIgnored w v) s = .next s) ∧
  (∀ (w : BitVec 6) (v : Word), w.toNat = 1 ∨ 20 ≤ w.toNat →
    decode (.regWrite (1#1 ++ w ++ v)) = .ok (.wrIgnored w v))

/-- R181: the three cases of a write to CMD. -/
def Obligations.DoorbellAcceptsRejectsOrIgnores : Prop :=
  ∀ (v : Word) (s : State),
    (s.phase = .idle → v.extractLsb' 4 4 = 0#4 → v.extractLsb' 16 16 = 0#16 →
      exec (.wrCmd v) s = .next
        { s with
          cmd := v
          ctx := { s.ctx with
            present := v.extractLsb' 0 4, depth := v.extractLsb' 8 8
            src0 := s.regs.src0Hi ++ s.regs.src0Lo
            src1 := s.regs.src1Hi ++ s.regs.src1Lo
            src2 := s.regs.src2Hi ++ s.regs.src2Lo
            lw := s.regs.lumaWidth, lh := s.regs.lumaHeight, ls := s.regs.lumaStride
            cw := s.regs.chromaWidth, ch := s.regs.chromaHeight, cs := s.regs.chromaStride
            hLuma := s.regs.hLuma, hChroma := s.regs.hChroma
            hYuv444 := s.regs.hYuv444, hRgb := s.regs.hRgb
            frameIndex := s.regs.frameIndex, dstFormat := s.regs.dstFormat
            mainHeld := false, chromaHeld := false }
          status := { busy := true, done := false, success := false, cause := .none }
          phase := .lockMain }) ∧
    (s.phase = .idle → (v.extractLsb' 4 4 ≠ 0#4 ∨ v.extractLsb' 16 16 ≠ 0#16) →
      exec (.wrCmd v) s = .next
        { s with
          cmd := v
          status := { busy := false, done := true, success := false, cause := .illegalCmd } }) ∧
    (s.phase ≠ .idle → exec (.wrCmd v) s = .next s)

/-- R100, R203, as the host sees it: an illegal word written in IDLE, by the register port or as a CMD
word, finishes in the same step with STATUS 0x32 (ILLEGAL_CMD, code 3), CMD holding the word, no lock
requested and no memory touched. -/
def Obligations.IllegalCommandFinishesAtOnce : Prop :=
  ∀ (v : Word) (s : State) (r : List Turn), s.phase = .idle →
    (v.extractLsb' 4 4 ≠ 0#4 ∨ v.extractLsb' 16 16 ≠ 0#16) →
    (s.turns = .write (1#1 ++ 0#6 ++ v) :: r ∨ s.turns = .command v :: r) →
    ∃ t, step s = .next t ∧ readReg t 1 = 0x32 ∧ readReg t 0 = v ∧ t.phase = .idle ∧
      t = { s with cmd := v, turns := r, status := t.status }

/-! ### The lock port -/

/-- R184: with an answer at hand LOCK completes in the phases that issue it: the answer is used up and
recorded, a grant makes the agent hold the lock, and registers, CMD, memory and the host's side are
unchanged. With no answer the block waits: nothing changes. -/
def Obligations.LockTakesTheAnswerOrWaits : Prop :=
  ∀ (h : Word) (s : State), s.phase = .lockMain ∨ s.phase = .lockChroma →
    (s.answers = [] → exec (.lock h) s = .next s) ∧
    (∀ a rest, s.answers = a :: rest → ∃ t, exec (.lock h) s = .next t ∧
      t = { s with
        answers := rest
        lockTrace := s.lockTrace ++ [.lock h a]
        agentLocks := t.agentLocks, ctx := t.ctx, status := t.status, phase := t.phase } ∧
      (a = .deny → t.agentLocks = s.agentLocks) ∧
      (∀ b p e, a = .grant b p e →
        t.agentLocks = { handle := h, base := b, pitch := p, extent := e } :: s.agentLocks))

/-- R152: the step of the block in LOCK_MAIN. -/
def Obligations.LockMainPhase : Prop :=
  ∀ s : State, s.phase = .lockMain → s.turns = [] →
    (presentBit s.ctx.present (mainSel s.ctx.present) = false ↔
      single s.ctx.present = false ∧ s.ctx.present.getLsbD 0 = false) ∧
    (presentBit s.ctx.present (mainSel s.ctx.present) = false →
      step s = .next
        { s with
          status := { busy := false, done := true, success := false, cause := .mainAbsent }, phase := .idle }) ∧
    (presentBit s.ctx.present (mainSel s.ctx.present) = true → ∀ rest,
      (s.answers = .deny :: rest → step s = .next
        { s with
          answers := rest, lockTrace := s.lockTrace ++ [.lock (mainHandle s.ctx) .deny]
          status := { busy := false, done := true, success := false, cause := .mainLockDenied }
          phase := .idle }) ∧
      (∀ b p e, s.answers = .grant b p e :: rest → step s = .next
        { s with
          answers := rest, lockTrace := s.lockTrace ++ [.lock (mainHandle s.ctx) (.grant b p e)]
          agentLocks := { handle := mainHandle s.ctx, base := b, pitch := p, extent := e } :: s.agentLocks
          ctx := { s.ctx with mainBase := b, mainPitch := p, mainExtent := e, mainHeld := true }
          phase := if single s.ctx.present = true then .copy else .lockChroma }))

/-- R153: the step of the block in LOCK_CHROMA, which the block enters only when `single = 0`. -/
def Obligations.LockChromaPhase : Prop :=
  (∀ s t : State, s.turns = [] → s.phase ≠ .lockChroma → step s = .next t → t.phase = .lockChroma →
    single t.ctx.present = false) ∧
  ∀ s : State, s.phase = .lockChroma → s.turns = [] →
    (s.ctx.present.getLsbD 1 = false →
      step s = .next
        { s with
          ctx := { s.ctx with pendOk := false, pendCause := .chromaAbsent }, phase := .unlockMain }) ∧
    (s.ctx.present.getLsbD 1 = true → ∀ rest,
      (s.answers = .deny :: rest → step s = .next
        { s with
          answers := rest, lockTrace := s.lockTrace ++ [.lock s.ctx.hChroma .deny]
          ctx := { s.ctx with pendOk := false, pendCause := .chromaLockDenied }, phase := .unlockMain }) ∧
      (∀ b p e, s.answers = .grant b p e :: rest → step s = .next
        { s with
          answers := rest, lockTrace := s.lockTrace ++ [.lock s.ctx.hChroma (.grant b p e)]
          agentLocks := { handle := s.ctx.hChroma, base := b, pitch := p, extent := e } :: s.agentLocks
          ctx := { s.ctx with chromaBase := b, chromaPitch := p, chromaExtent := e, chromaHeld := true }
          phase := .copy }))

/-- R156, R157, R158: UNLOCK in the two phases that issue it. The second ends the operation: STATUS is
published whole and the phase is IDLE. -/
def Obligations.UnlockReleasesAndFinishes : Prop :=
  ∀ (h : Word) (s : State),
    (s.phase = .unlockChroma → exec (.unlock h) s = .next
      { s with
        lockTrace := s.lockTrace ++ [.unlock h], agentLocks := agentRelease h s.agentLocks
        ctx := { s.ctx with chromaHeld := false }, phase := .unlockMain }) ∧
    (s.phase = .unlockMain → exec (.unlock h) s = .next
      { s with
        lockTrace := s.lockTrace ++ [.unlock h], agentLocks := agentRelease h s.agentLocks
        ctx := { s.ctx with mainHeld := false }
        status := { busy := false, done := true, success := s.ctx.pendOk, cause := s.ctx.pendCause }
        phase := .idle })

/-- The model's treatment of messages outside the phases that issue them (notes/assumptions/15.md): LOCK,
UNLOCK and the engine are refused by name, and no step of the machine ever meets that refusal. -/
def Obligations.OutOfPhaseMessagesRefused : Prop :=
  (∀ (h : Word) (s : State), s.phase ≠ .lockMain → s.phase ≠ .lockChroma →
    exec (.lock h) s = .refused .wrongPhase) ∧
  (∀ (h : Word) (s : State), s.phase ≠ .unlockChroma → s.phase ≠ .unlockMain →
    exec (.unlock h) s = .refused .wrongPhase) ∧
  (∀ (i : Instr) (s : State), i = .engSplit1 ∨ i = .engSplit2 ∨ i = .engPacked1 ∨ i = .engPacked2 →
    s.phase ≠ .copy → exec i s = .refused .wrongPhase) ∧
  (∀ s : State, step s ≠ .refused .wrongPhase)

/-! ### The engine -/

/-- R130: ENG.PACKED.1, with the channel map of the commands that reach it: every byte it writes, every
byte it leaves, and its frame. It holds under the contract (R186, R245), and whenever the copies stay in
the windows and do not overlap, contract or not; the rest is EngineStaysInWindowsOrFaults. -/
def Obligations.EnginePackedOneCopies : Prop :=
  decode (.engsel 0b10#2) = .ok .engPacked1 ∧
  ∀ s : State, s.phase = .copy → Memory.wf s.mem = true →
    packedContract 1 s.ctx ∨ copiesApart .packed 1 s.ctx →
    ∃ t, exec .engPacked1 s = .next t ∧
      packedCopied 1 s.ctx.lw.toNat s.ctx.lh.toNat s.ctx.src2.toNat s.ctx.src1.toNat s.ctx.src0.toNat
        s.ctx.ls.toNat s.ctx.cs.toNat s.ctx.mainBase.toNat s.ctx.mainPitch.toNat s.mem t.mem ∧
      t = { s with
        mem := t.mem
        ctx := { s.ctx with pendOk := true, pendCause := .none }
        phase := if s.ctx.chromaHeld = true then .unlockChroma else .unlockMain }

/-- R131: ENG.PACKED.2, strides and pitch halved (bit 0 dropped), identity channel map. -/
def Obligations.EnginePackedTwoCopies : Prop :=
  decode (.engsel 0b11#2) = .ok .engPacked2 ∧
  ∀ s : State, s.phase = .copy → Memory.wf s.mem = true →
    packedContract 2 s.ctx ∨ copiesApart .packed 2 s.ctx →
    ∃ t, exec .engPacked2 s = .next t ∧
      packedCopied 2 s.ctx.lw.toNat s.ctx.lh.toNat s.ctx.src0.toNat s.ctx.src1.toNat s.ctx.src2.toNat
        (s.ctx.ls.toNat / 2) (s.ctx.cs.toNat / 2) s.ctx.mainBase.toNat (s.ctx.mainPitch.toNat / 2)
        s.mem t.mem ∧
      t = { s with
        mem := t.mem
        ctx := { s.ctx with pendOk := true, pendCause := .none }
        phase := if s.ctx.chromaHeld = true then .unlockChroma else .unlockMain }

/-- R132: ENG.SPLIT.1, `off = 1`, channels 1 and 2 taking plane2 and plane1. -/
def Obligations.EngineSplitOneCopies : Prop :=
  decode (.engsel 0b00#2) = .ok .engSplit1 ∧
  ∀ s : State, s.phase = .copy → Memory.wf s.mem = true →
    splitContract 1 s.ctx ∨ copiesApart .split 1 s.ctx →
    ∃ t, exec .engSplit1 s = .next t ∧
      splitCopied 1 1 s.ctx.lw.toNat s.ctx.lh.toNat s.ctx.cw.toNat s.ctx.ch.toNat
        s.ctx.src0.toNat s.ctx.src2.toNat s.ctx.src1.toNat s.ctx.ls.toNat s.ctx.cs.toNat
        s.ctx.mainBase.toNat s.ctx.mainPitch.toNat s.ctx.chromaBase.toNat s.ctx.chromaPitch.toNat
        s.mem t.mem ∧
      t = { s with
        mem := t.mem
        ctx := { s.ctx with pendOk := true, pendCause := .none }
        phase := if s.ctx.chromaHeld = true then .unlockChroma else .unlockMain }

/-- R133: ENG.SPLIT.2, `off = 0`, strides and pitches halved, identity channel map. -/
def Obligations.EngineSplitTwoCopies : Prop :=
  decode (.engsel 0b01#2) = .ok .engSplit2 ∧
  ∀ s : State, s.phase = .copy → Memory.wf s.mem = true →
    splitContract 2 s.ctx ∨ copiesApart .split 2 s.ctx →
    ∃ t, exec .engSplit2 s = .next t ∧
      splitCopied 2 0 s.ctx.lw.toNat s.ctx.lh.toNat s.ctx.cw.toNat s.ctx.ch.toNat
        s.ctx.src0.toNat s.ctx.src1.toNat s.ctx.src2.toNat (s.ctx.ls.toNat / 2) (s.ctx.cs.toNat / 2)
        s.ctx.mainBase.toNat (s.ctx.mainPitch.toNat / 2) s.ctx.chromaBase.toNat
        (s.ctx.chromaPitch.toNat / 2) s.mem t.mem ∧
      t = { s with
        mem := t.mem
        ctx := { s.ctx with pendOk := true, pendCause := .none }
        phase := if s.ctx.chromaHeld = true then .unlockChroma else .unlockMain }

/-- Outside the contract (notes/assumptions/4.md, 7.md): a COPY phase with a write outside its window faults by
name (U3); one that stays in its windows completes whatever overlaps, leaves every byte no rule names,
and changes nothing but memory, the pending result, the phase and the count of free draws (U6). -/
def Obligations.EngineStaysInWindowsOrFaults : Prop :=
  ∀ (i : Instr) (top : Topology) (w : Nat) (s : State), s.phase = .copy →
    (i = .engPacked1 ∧ top = .packed ∧ w = 1) ∨ (i = .engPacked2 ∧ top = .packed ∧ w = 2) ∨
      (i = .engSplit1 ∧ top = .split ∧ w = 1) ∨ (i = .engSplit2 ∧ top = .split ∧ w = 2) →
    (allInWindow s.ctx w (copyItems top (engOperands top w s.ctx)) = false →
      exec i s = .fault .outOfWindow) ∧
    (allInWindow s.ctx w (copyItems top (engOperands top w s.ctx)) = true →
      ∃ t, exec i s = .next t ∧
        (∀ a, a ∉ writtenAddrs w (copyItems top (engOperands top w s.ctx)) →
          readByte t.mem a = readByte s.mem a) ∧
        t = { s with
          mem := t.mem
          draws := t.draws
          ctx := { s.ctx with pendOk := true, pendCause := .none }
          phase := if s.ctx.chromaHeld = true then .unlockChroma else .unlockMain })

/-- R249, R245, R246, R66: under the contract every byte the engine rules write lies in the window of its
surface, no byte is written twice, and none is both read and written. -/
def Obligations.ContractKeepsCopiesInWindowsApart : Prop :=
  (∀ (w : Nat) (c : Ctx), w = 1 ∨ w = 2 → packedContract w c →
    copiesApart .packed w c) ∧
  (∀ (w : Nat) (c : Ctx), w = 1 ∨ w = 2 → splitContract w c →
    copiesApart .split w c)

/-- R71: when no two accesses touch one byte, every order of the reads and writes in which a copy's write
follows its read leaves the same memory. -/
def Obligations.CopyOrderDoesNotMatter : Prop :=
  ∀ (w : Nat) (picks : Nat → Nat) (l : List CopyItem) (m : Memory), w = 1 ∨ w = 2 → Memory.wf m = true →
    noOverlap w l = true → copyOrdered w picks l m = copyAll w l m

/-- The free value of overlapping copies (U6; notes/assumptions/4.md): each written byte holds what some
order of the accesses leaves there, every other byte its old value. -/
def Obligations.OverlappingBytesComeFromSomeOrder : Prop :=
  ∀ (w draw : Nat) (l : List CopyItem) (m : Memory) (a : Nat), Memory.wf m = true →
    (a ∈ writtenAddrs w l → ∃ picks, readByte (copyFree w draw l m) a = readByte (copyOrdered w picks l m) a) ∧
    (a ∉ writtenAddrs w l → readByte (copyFree w draw l m) a = readByte m a)

/-- R67, as counts: PACKED reads `3 * lw * lh` samples, SPLIT `lw * lh` from channel 0 and
`2 * min(cw, lw) * min(ch, lh)` from channels 1 and 2; each is read once and written once. -/
def Obligations.AccessCounts : Prop :=
  ∀ o : EngOperands,
    (copyItems .packed o).length = 3 * o.lw * o.lh ∧
    ((copyItems .split o).filter fun i => i.win = .main).length = o.lw * o.lh ∧
    ((copyItems .split o).filter fun i => i.win = .chroma).length = 2 * min o.cw o.lw * min o.ch o.lh

/-- R121: the four byte quantities become element-strides: `e = b` for W = 1, `e = b[31:1]` for W = 2; a
multiple of W loses nothing, an odd `b` at W = 2 becomes `(b - 1) / 2`. -/
def Obligations.ElementStrideDropsBitZero : Prop :=
  (∀ (t : Topology) (w : Nat) (c : Ctx),
    (engOperands t w c).es0 = elementStride c.ls w ∧ (engOperands t w c).es1 = elementStride c.cs w ∧
    (engOperands t w c).epMain = elementStride c.mainPitch w ∧
    (engOperands t w c).epChroma = elementStride c.chromaPitch w) ∧
  ∀ b : Word, elementStride b 1 = b.toNat ∧ elementStride b 2 = (b.extractLsb' 1 31).toNat ∧
    (∀ w : Nat, w = 1 ∨ w = 2 → b.toNat % w = 0 → elementStride b w * w = b.toNat) ∧
    (b.toNat % 2 = 1 → elementStride b 2 = (b.toNat - 1) / 2)

/-! ### The six commands -/

/-- R162, R164: UPL.YUV444.8 and UPL.RGB.8, granted, run to `finish(1, NONE)`: STATUS 0x06, the packed
texels (plane2, plane1, plane0, unchanged), one LOCK and one UNLOCK of the command's own surface. -/
def Obligations.PackedEightBitCommandsComplete : Prop :=
  ∀ (pl pc pr : Bool) (d : BitVec 8) (i : Instr) (v h : Word) (s : State) (b : Addr) (p : Word) (e : Nat)
    (rest : List LockAnswer),
    (i = .uplYuv8 pl pc pr d ∧ v = cmdWord pl pc true pr d ∧ h = s.regs.hYuv444) ∨
      (i = .uplRgb8 pl pc d ∧ v = cmdWord pl pc false true d ∧ h = s.regs.hRgb) →
    d.toNat ≤ 8 → s.phase = .idle → Memory.wf s.mem = true → s.answers = .grant b p e :: rest →
    packedContract 1 (ctxMainGranted v s b p e) →
    ∃ t, exec i s = .next t ∧ readReg t 1 = 0x06 ∧
      packedCopied 1 s.regs.lumaWidth.toNat s.regs.lumaHeight.toNat
        (regSrc2 s.regs) (regSrc1 s.regs) (regSrc0 s.regs)
        s.regs.lumaStride.toNat s.regs.chromaStride.toNat b.toNat p.toNat s.mem t.mem ∧
      t = { s with
        cmd := v, status := t.status, ctx := t.ctx, mem := t.mem, answers := rest
        lockTrace := s.lockTrace ++ [.lock h (.grant b p e), .unlock h] }

/-- R163, R165: UPL.YUV444.16 and UPL.RGB.16: the packed texels (plane0, plane1, plane2, unchanged). -/
def Obligations.PackedSixteenBitCommandsComplete : Prop :=
  ∀ (pl pc pr : Bool) (d : BitVec 8) (i : Instr) (v h : Word) (s : State) (b : Addr) (p : Word) (e : Nat)
    (rest : List LockAnswer),
    (i = .uplYuv16 pl pc pr d ∧ v = cmdWord pl pc true pr d ∧ h = s.regs.hYuv444) ∨
      (i = .uplRgb16 pl pc d ∧ v = cmdWord pl pc false true d ∧ h = s.regs.hRgb) →
    8 < d.toNat → s.phase = .idle → Memory.wf s.mem = true → s.answers = .grant b p e :: rest →
    packedContract 2 (ctxMainGranted v s b p e) →
    ∃ t, exec i s = .next t ∧ readReg t 1 = 0x06 ∧
      packedCopied 2 s.regs.lumaWidth.toNat s.regs.lumaHeight.toNat
        (regSrc0 s.regs) (regSrc1 s.regs) (regSrc2 s.regs)
        (s.regs.lumaStride.toNat / 2) (s.regs.chromaStride.toNat / 2) b.toNat (p.toNat / 2) s.mem t.mem ∧
      t = { s with
        cmd := v, status := t.status, ctx := t.ctx, mem := t.mem, answers := rest
        lockTrace := s.lockTrace ++ [.lock h (.grant b p e), .unlock h] }

/-- R160, R161: UPL.DUAL.8 and UPL.DUAL.16 with both surfaces present and both locks granted run to
`finish(1, NONE)`: STATUS 0x06, luma from plane0, the chroma pairs (plane2, plane1) displaced by one slot
at W = 1 and (plane1, plane2) in place at W = 2, chroma unlocked before luma. -/
def Obligations.DualCommandsComplete : Prop :=
  ∀ (d : BitVec 8) (s : State) (b : Addr) (p : Word) (e : Nat) (b' : Addr) (p' : Word) (e' : Nat)
    (rest : List LockAnswer),
    s.phase = .idle → Memory.wf s.mem = true → s.answers = .grant b p e :: .grant b' p' e' :: rest →
    (d.toNat ≤ 8 → splitContract 1 (ctxBothGranted (cmdWord true true false false d) s b p e b' p' e') →
      ∃ t, exec (.uplDual8 true true d) s = .next t ∧ readReg t 1 = 0x06 ∧
        splitCopied 1 1 s.regs.lumaWidth.toNat s.regs.lumaHeight.toNat
          s.regs.chromaWidth.toNat s.regs.chromaHeight.toNat
          (regSrc0 s.regs) (regSrc2 s.regs) (regSrc1 s.regs)
          s.regs.lumaStride.toNat s.regs.chromaStride.toNat b.toNat p.toNat b'.toNat p'.toNat s.mem t.mem ∧
        t = { s with
          cmd := cmdWord true true false false d, status := t.status, ctx := t.ctx, mem := t.mem, answers := rest
          lockTrace := s.lockTrace ++
            [.lock s.regs.hLuma (.grant b p e), .lock s.regs.hChroma (.grant b' p' e'),
             .unlock s.regs.hChroma, .unlock s.regs.hLuma] }) ∧
    (8 < d.toNat → splitContract 2 (ctxBothGranted (cmdWord true true false false d) s b p e b' p' e') →
      ∃ t, exec (.uplDual16 true true d) s = .next t ∧ readReg t 1 = 0x06 ∧
        splitCopied 2 0 s.regs.lumaWidth.toNat s.regs.lumaHeight.toNat
          s.regs.chromaWidth.toNat s.regs.chromaHeight.toNat
          (regSrc0 s.regs) (regSrc1 s.regs) (regSrc2 s.regs)
          (s.regs.lumaStride.toNat / 2) (s.regs.chromaStride.toNat / 2) b.toNat (p.toNat / 2)
          b'.toNat (p'.toNat / 2) s.mem t.mem ∧
        t = { s with
          cmd := cmdWord true true false false d, status := t.status, ctx := t.ctx, mem := t.mem, answers := rest
          lockTrace := s.lockTrace ++
            [.lock s.regs.hLuma (.grant b p e), .lock s.regs.hChroma (.grant b' p' e'),
             .unlock s.regs.hChroma, .unlock s.regs.hLuma] })

/-- R204, R205: UPL.DUAL with a surface absent. Without luma: MAIN_ABSENT, no lock-port traffic. With luma,
granted, and without chroma: CHROMA_ABSENT after one LOCK and one UNLOCK of luma. No memory access. -/
def Obligations.AbsentSurfacesFail : Prop :=
  ∀ (pc : Bool) (d : BitVec 8) (i : Instr) (s : State), s.phase = .idle →
    (i = .uplDual8 false pc d ∨ i = .uplDual16 false pc d →
      ∃ t, exec i s = .next t ∧ readReg t 1 = 0x42 ∧
        t = { s with cmd := cmdWord false pc false false d, status := t.status, ctx := t.ctx }) ∧
    (∀ b p e rest, i = .uplDual8 true false d ∨ i = .uplDual16 true false d →
      s.answers = .grant b p e :: rest →
      ∃ t, exec i s = .next t ∧ readReg t 1 = 0x52 ∧
        t = { s with
          cmd := cmdWord true false false false d, status := t.status, ctx := t.ctx, answers := rest
          lockTrace := s.lockTrace ++ [.lock s.regs.hLuma (.grant b p e), .unlock s.regs.hLuma] })

/-- R201: every command whose main surface is present and whose main LOCK is denied finishes with
MAIN_LOCK_DENIED: no memory access, no unlock, chroma never locked. -/
def Obligations.DeniedMainLockFails : Prop :=
  ∀ (i : Instr) (v : Word) (s : State) (rest : List LockAnswer), s.phase = .idle → encode i = .cmd v →
    presentBit (v.extractLsb' 0 4) (mainSel (v.extractLsb' 0 4)) = true → s.answers = .deny :: rest →
    ∃ t, exec i s = .next t ∧ readReg t 1 = 0x12 ∧
      t = { s with
        cmd := v, status := t.status, ctx := t.ctx, answers := rest
        lockTrace := s.lockTrace ++ [.lock (mainHandle t.ctx) .deny] } ∧
      mainHandle t.ctx =
        (if v.getLsbD 2 = true then s.regs.hYuv444 else if v.getLsbD 3 = true then s.regs.hRgb
         else s.regs.hLuma)

/-- R202: UPL.DUAL.8 and UPL.DUAL.16 whose chroma LOCK is denied after the main grant finish with
CHROMA_LOCK_DENIED: no memory access, exactly one unlock, of the main surface. No other command ends with
that cause. -/
def Obligations.DeniedChromaLockFails : Prop :=
  (∀ (d : BitVec 8) (i : Instr) (s : State) (b : Addr) (p : Word) (e : Nat) (rest : List LockAnswer),
    s.phase = .idle → i = .uplDual8 true true d ∨ i = .uplDual16 true true d →
    s.answers = .grant b p e :: .deny :: rest →
    ∃ t, exec i s = .next t ∧ readReg t 1 = 0x22 ∧
      t = { s with
        cmd := cmdWord true true false false d, status := t.status, ctx := t.ctx, answers := rest
        lockTrace := s.lockTrace ++
          [.lock s.regs.hLuma (.grant b p e), .lock s.regs.hChroma .deny, .unlock s.regs.hLuma] }) ∧
  (∀ (i : Instr) (v : Word) (s t : State), encode i = .cmd v → s.phase = .idle → exec i s = .next t →
    t.status.cause = .chromaLockDenied → ∃ d, i = .uplDual8 true true d ∨ i = .uplDual16 true true d)

/-- R181 (c), R247: a command given while another operation runs changes nothing. -/
def Obligations.CommandWhileBusyIgnored : Prop :=
  ∀ (i : Instr) (v : Word) (s : State), encode i = .cmd v → s.phase ≠ .idle → exec i s = .next s

/-- The model's reading of the UPL rows (notes/assumptions/1.md) against the phase rules: a command is its
doorbell write followed by the block's own steps, one phase a step, with no host turn between. -/
def Obligations.CommandRefinesDoorbellAndPhases : Prop :=
  ∀ (i : Instr) (v : Word) (s : State), encode i = .cmd v → i.wf = true → s.phase = .idle → s.turns = [] →
    Host.Core.run core 6 ({ s with turns := [.write (writeWord 0 v)] } : State) = exec i s

/-- R159: the lock-port traces an operation can produce, by its outcome, in full. -/
def Obligations.OperationTraces : Prop :=
  ∀ (i : Instr) (v : Word) (s t : State), encode i = .cmd v → i.wf = true → s.phase = .idle →
    exec i s = .next t → t.phase = .idle →
    (t.status.cause = .mainAbsent ∧ t.lockTrace = s.lockTrace) ∨
    (t.status.cause = .mainLockDenied ∧ t.lockTrace = s.lockTrace ++ [.lock (mainHandle t.ctx) .deny]) ∨
    (t.status.cause = .none ∧ single t.ctx.present = true ∧ ∃ b p e,
      t.lockTrace = s.lockTrace ++ [.lock (mainHandle t.ctx) (.grant b p e), .unlock (mainHandle t.ctx)]) ∨
    (t.status.cause = .chromaAbsent ∧ ∃ b p e,
      t.lockTrace = s.lockTrace ++ [.lock (mainHandle t.ctx) (.grant b p e), .unlock (mainHandle t.ctx)]) ∨
    (t.status.cause = .chromaLockDenied ∧ ∃ b p e,
      t.lockTrace = s.lockTrace ++
        [.lock (mainHandle t.ctx) (.grant b p e), .lock t.ctx.hChroma .deny, .unlock (mainHandle t.ctx)]) ∨
    (t.status.cause = .none ∧ single t.ctx.present = false ∧ ∃ b p e b' p' e',
      t.lockTrace = s.lockTrace ++
        [.lock (mainHandle t.ctx) (.grant b p e), .lock t.ctx.hChroma (.grant b' p' e'),
         .unlock t.ctx.hChroma, .unlock (mainHandle t.ctx)])

/-- R212: a failed operation changes no memory and no descriptor register, and holds no lock. -/
def Obligations.FailedOperationWritesNothing : Prop :=
  ∀ (i : Instr) (v : Word) (s t : State), encode i = .cmd v → i.wf = true → s.phase = .idle →
    exec i s = .next t → t.status.done = true → t.status.success = false →
    t.mem = s.mem ∧ t.regs = s.regs ∧ t.cmd = v ∧ t.phase = .idle ∧ t.status.busy = false ∧
      t.agentLocks = s.agentLocks ∧ t.ctx.mainHeld = false ∧ t.ctx.chromaHeld = false

/-- R138: a command run again on what it left, with the same answers, succeeds again and leaves the same
memory, when its copies do not overlap. -/
def Obligations.UploadTwiceSameMemory : Prop :=
  ∀ (i : Instr) (v : Word) (s t : State), encode i = .cmd v → i.wf = true → s.phase = .idle →
    Memory.wf s.mem = true → exec i s = .next t → t.status.done = true → t.status.success = true →
    noOverlap (sampleWidth t.ctx.depth) (operationItems t.ctx) = true →
    ∃ u, exec i { t with answers := s.answers } = .next u ∧ u.mem = t.mem ∧ u.status = t.status

/-! ### Whole-machine rules -/

/-- The invariant holds right after reset. -/
def Obligations.InvariantHoldsAtReset : Prop := StateInv State.reset

/-- R36, R42, R75, R159: the invariant (STATUS agrees with the phase, the held bits with the phase and with the
lock agent, every grant released or held, memory canonical) is kept by every step, whoever moves. -/
def Obligations.StepKeepsTheInvariant : Prop :=
  ∀ s t : State, StateInv s → step s = .next t → StateInv t

/-- R35: the values STATUS reads in the states of the invariant are exactly the eight listed. -/
def Obligations.StatusReadsOnlyLegalValues : Prop :=
  ∀ v : Word, (∃ s : State, StateInv s ∧ readReg s 1 = v) ↔
    v = 0x00 ∨ v = 0x01 ∨ v = 0x06 ∨ v = 0x12 ∨ v = 0x22 ∨ v = 0x32 ∨ v = 0x42 ∨ v = 0x52

/-- R42: on the block's turn a byte of memory changes only in the COPY phase and only inside a window whose
lock the block holds. No contract is assumed: R249 says the block cannot check its grants, and the window
clause holds of every state because the model's COPY phase faults on a write outside them
(notes/assumptions/7.md, U3). Under the contract of R186 ContractKeepsCopiesInWindowsApart says that the
fault is not met. -/
def Obligations.BlockWritesOnlyHeldWindows : Prop :=
  ∀ (s t : State) (r : List Turn), s.turns = [] ∨ s.turns = .block :: r → step s = .next t →
    ∀ a, readByte t.mem a ≠ readByte s.mem a →
      s.phase = .copy ∧
      ((s.ctx.mainHeld = true ∧ windowHas s.ctx.mainBase s.ctx.mainExtent a) ∨
       (s.ctx.chromaHeld = true ∧ windowHas s.ctx.chromaBase s.ctx.chromaExtent a))

/-- R20, R29: only a host write to a descriptor register, or reset, changes one; the block never does. -/
def Obligations.OnlyHostWritesChangeDescriptorRegisters : Prop :=
  (∀ (i : Instr) (s t : State), exec i s = .next t → (∀ w v, i ≠ .wr w v) → t.regs = s.regs) ∧
  (∀ (s t : State), step s = .next t → t.regs ≠ s.regs →
    (∃ w v r, s.turns = .write (writeWord w v) :: r ∧ 2 ≤ w.toNat ∧ w.toNat ≤ 19) ∨
    (∃ r, s.turns = .reset :: r))

/-- R41, R76: the running operation reads only its snapshot: with any other contents of the descriptor
registers the block's step is the same but for them. -/
def Obligations.RunningOperationIgnoresRegisters : Prop :=
  ∀ (s : State) (r : Regs), s.turns = [] →
    (∀ t, step s = .next t → step { s with regs := r } = .next { t with regs := r }) ∧
    (∀ f, step s = .fault f → step { s with regs := r } = .fault f)

/-- R28, R167: FRAME_INDEX and DST_FORMAT have no effect on any operation: with other values in them a
command ends with the same memory, STATUS, phase, lock traffic and CMD. -/
def Obligations.InertRegistersHaveNoEffect : Prop :=
  ∀ (i : Instr) (v fi df : Word) (s t : State), encode i = .cmd v → exec i s = .next t →
    ∃ u, exec i { s with regs := { s.regs with frameIndex := fi, dstFormat := df } } = .next u ∧
      u.mem = t.mem ∧ u.status = t.status ∧ u.phase = t.phase ∧ u.cmd = t.cmd ∧
      u.lockTrace = t.lockTrace ∧ u.answers = t.answers ∧ u.agentLocks = t.agentLocks

/-- R250, R166: an operation in progress, its requests answered and the host still, is over within five steps
of the block; only the contract fault (U3) can stop it. -/
def Obligations.OperationEndsWithinFiveSteps : Prop :=
  ∀ s : State, StateInv s → s.phase ≠ .idle → s.turns = [] → 2 ≤ s.answers.length →
    (∃ t : State, Host.Core.run core 5 s = .next t ∧ t.phase = .idle ∧ t.status.done = true) ∨
    Host.Core.run core 5 s = .fault Fault.outOfWindow

/-- R44, and the model's treatment of R241 and U5 (notes/assumptions/8.md): a host store changes exactly its
byte; one into a window the block holds, or into a byte the running operation reads, is refused. -/
def Obligations.HostStoreChangesOneByte : Prop :=
  ∀ (s : State) (a : Addr) (b : Byte) (r : List Turn), s.turns = .store a b :: r → Memory.wf s.mem = true →
    ((s.phase = .idle ∨ reservedByte s.ctx a.toNat = false) →
      ∃ t, step s = .next t ∧ t = { s with turns := r, mem := t.mem } ∧
        ∀ x, readByte t.mem x = if x = a.toNat then b else readByte s.mem x) ∧
    (s.phase ≠ .idle → reservedByte s.ctx a.toNat = true → step s = .refused .racingStore)

/-- Memory is one array of bytes (R44, R8): reading after a byte write gives the byte written there and
the old byte everywhere else, a sample write likewise byte by byte in address order mod 2^64 (R60), and
both keep the canonical form. -/
def Obligations.MemoryReadAfterWrite : Prop :=
  ∀ (m : Memory), Memory.wf m = true →
    (∀ (a x : Nat) (b : Byte), readByte (writeByte m a b) x = if x = a then b else readByte m x) ∧
    (∀ (a : Nat) (b : Byte), a < addrSpace → Memory.wf (writeByte m a b) = true) ∧
    (∀ (a n : Nat) (bs : List Byte) (i : Nat) (hi : i < bs.length), bs.length = n → n = 1 ∨ n = 2 →
      readByte (memWrite m a bs) ((a + i) % addrSpace) = bs[i] ∧
      Memory.wf (memWrite m a bs) = true ∧ memRead (memWrite m a bs) a n = bs)

end
end

