-- ==== Sys2Proof/Laws/Decode.lean ====
section
/-! SUPPORT. The fields of each encoded word read back (30_encoding.md R91, R105, R108). -/

namespace Sys2Proof

@[simp] theorem cmdDepth_cmdWord (pl pc py pr : Bool) (d : BitVec 8) :
    cmdDepth (cmdWord pl pc py pr d) = d := by
  apply BitVec.eq_of_getLsbD_eq
  intro i hi
  simp only [cmdDepth, cmdWord, BitVec.getLsbD_extractLsb', BitVec.getLsbD_append, hi, decide_true,
    Bool.true_and]
  interval_cases i <;> simp

@[simp] theorem cmdLegal_cmdWord (pl pc py pr : Bool) (d : BitVec 8) :
    cmdLegal (cmdWord pl pc py pr d) = true := by
  simp only [cmdLegal, Bool.and_eq_true, beq_iff_eq]
  constructor
  all_goals
    apply BitVec.eq_of_getLsbD_eq
    intro i hi
    simp only [cmdWord, BitVec.getLsbD_extractLsb', BitVec.getLsbD_append, hi, decide_true, Bool.true_and]
    interval_cases i <;> simp

theorem cmdWord_pLuma (pl pc py pr : Bool) (d : BitVec 8) : (cmdWord pl pc py pr d).getLsbD 0 = pl := by
  simp only [cmdWord, BitVec.getLsbD_append]
  simp

theorem cmdWord_pChroma (pl pc py pr : Bool) (d : BitVec 8) : (cmdWord pl pc py pr d).getLsbD 1 = pc := by
  simp only [cmdWord, BitVec.getLsbD_append]
  simp

theorem cmdWord_pYuv (pl pc py pr : Bool) (d : BitVec 8) : (cmdWord pl pc py pr d).getLsbD 2 = py := by
  simp only [cmdWord, BitVec.getLsbD_append]
  simp

theorem cmdWord_pRgb (pl pc py pr : Bool) (d : BitVec 8) : (cmdWord pl pc py pr d).getLsbD 3 = pr := by
  simp only [cmdWord, BitVec.getLsbD_append]
  simp

/-- The command a word with the given fields selects (R101). -/
theorem decodeCmd_cmdWord (pl pc py pr : Bool) (d : BitVec 8) :
    decodeCmd (cmdWord pl pc py pr d) =
      if py then
        if depthNarrow d then .ok (.uplYuv8 pl pc pr d) else .ok (.uplYuv16 pl pc pr d)
      else if pr then
        if depthNarrow d then .ok (.uplRgb8 pl pc d) else .ok (.uplRgb16 pl pc d)
      else
        if depthNarrow d then .ok (.uplDual8 pl pc d) else .ok (.uplDual16 pl pc d) := by
  simp only [decodeCmd, cmdLegal_cmdWord, cmdWord_pLuma, cmdWord_pChroma, cmdWord_pYuv, cmdWord_pRgb,
    cmdDepth_cmdWord, if_true]

theorem lockWord_op (u : Bool) (h : Word) : (lockWord u h).getLsbD 32 = u := by
  simp only [lockWord, BitVec.getLsbD_append]
  simp

theorem lockWord_handle (u : Bool) (h : Word) : (lockWord u h).extractLsb' 0 32 = h := by
  apply BitVec.eq_of_getLsbD_eq
  intro i hi
  simp only [lockWord, BitVec.getLsbD_extractLsb', BitVec.getLsbD_append, hi, Nat.zero_add]
  simp

theorem readWord_rw (i : BitVec 6) : (readWord i).getLsbD 6 = false := by
  simp only [readWord, BitVec.getLsbD_append]
  simp

theorem readWord_widx (i : BitVec 6) : (readWord i).extractLsb' 0 6 = i := by
  apply BitVec.eq_of_getLsbD_eq
  intro j hj
  simp only [readWord, BitVec.getLsbD_extractLsb', BitVec.getLsbD_append, hj, Nat.zero_add]
  simp

theorem writeWord_rw (i : BitVec 6) (v : Word) : (writeWord i v).getLsbD 38 = true := by
  simp only [writeWord, BitVec.getLsbD_append]
  simp

theorem writeWord_widx (i : BitVec 6) (v : Word) : (writeWord i v).extractLsb' 32 6 = i := by
  apply BitVec.eq_of_getLsbD_eq
  intro j hj
  simp only [writeWord, BitVec.getLsbD_extractLsb', BitVec.getLsbD_append, hj]
  simp [hj]

theorem writeWord_wdata (i : BitVec 6) (v : Word) : (writeWord i v).extractLsb' 0 32 = v := by
  apply BitVec.eq_of_getLsbD_eq
  intro j hj
  simp only [writeWord, BitVec.getLsbD_extractLsb', BitVec.getLsbD_append, hj, Nat.zero_add]
  simp

end Sys2Proof
end

