-- ==== Sys2Proof/Laws/Memory.lean ====
section
/-! SUPPORT. The laws of memory: read after write, and every operation keeps the canonical form. -/

namespace Sys2Proof.Machine

open Sys2Proof

/-- What `Memory.wf` says of a non-empty memory. -/
theorem Memory.wf_cons {k : Nat} {v : Byte} {r : Memory} :
    Memory.wf ((k, v) :: r) = true ↔
      k < addrSpace ∧ v ≠ unlistedByte ∧ (∀ c ∈ r, k < c.1) ∧ Memory.wf r = true := by
  induction r generalizing k v with
  | nil => simp [Memory.wf]
  | cons c r ih =>
    obtain ⟨k', v'⟩ := c
    rw [Memory.wf]
    simp only [Bool.and_eq_true, decide_eq_true_eq]
    constructor
    · rintro ⟨⟨⟨h1, h2⟩, h3⟩, h4⟩
      refine ⟨h1, h2, ?_, h4⟩
      have := (ih.mp h4).2.2.1
      intro c hc
      rcases List.mem_cons.mp hc with rfl | hc
      · exact h3
      · exact lt_trans h3 (this c hc)
    · rintro ⟨h1, h2, h3, h4⟩
      exact ⟨⟨⟨h1, h2⟩, h3 _ List.mem_cons_self⟩, h4⟩

/-- An address below every listed one reads as unlisted. -/
theorem readByte_eq_unlisted {m : Memory} {a : Nat} (h : ∀ c ∈ m, a < c.1) : readByte m a = unlistedByte := by
  induction m with
  | nil => rfl
  | cons c r ih =>
    obtain ⟨k, v⟩ := c
    have hk : a < k := h (k, v) List.mem_cons_self
    rw [readByte, if_neg (by omega)]
    exact ih fun c hc => h c (List.mem_cons_of_mem _ hc)

theorem readByte_consCell_same {r : Memory} {a : Nat} {b : Byte} (h : ∀ c ∈ r, a < c.1) :
    readByte (consCell a b r) a = b := by
  unfold consCell
  split
  · rename_i hb; rw [hb]; exact readByte_eq_unlisted h
  · simp [readByte]

theorem readByte_consCell_other {r : Memory} {a a' : Nat} {b : Byte} (h : a' ≠ a) :
    readByte (consCell a b r) a' = readByte r a' := by
  unfold consCell
  split
  · rfl
  · rw [readByte, if_neg (fun e => h e.symm)]

/-- Reading the byte just written gives it. -/
theorem readByte_writeByte_same {m : Memory} (hm : Memory.wf m = true) (a : Nat) (b : Byte) :
    readByte (writeByte m a b) a = b := by
  induction m with
  | nil => exact readByte_consCell_same (by simp)
  | cons c r ih =>
    obtain ⟨k, v⟩ := c
    obtain ⟨-, -, hk, hr⟩ := Memory.wf_cons.mp hm
    rw [writeByte]
    split
    · rename_i hak
      refine readByte_consCell_same fun c hc => ?_
      rcases List.mem_cons.mp hc with rfl | hc
      · exact hak
      · exact lt_trans hak (hk c hc)
    · split
      · rename_i hak; subst hak; exact readByte_consCell_same hk
      · rename_i hlt hne
        rw [readByte, if_neg (fun e => hne e.symm)]
        exact ih hr

/-- A byte write leaves every other byte. -/
theorem readByte_writeByte_other {m : Memory} {a a' : Nat} (h : a' ≠ a) (b : Byte) :
    readByte (writeByte m a b) a' = readByte m a' := by
  induction m with
  | nil => exact readByte_consCell_other h
  | cons c r ih =>
    obtain ⟨k, v⟩ := c
    rw [writeByte]
    split
    · exact readByte_consCell_other h
    · split
      · rename_i hak
        subst hak
        rw [readByte_consCell_other h, readByte, if_neg (fun e => h e.symm)]
      · rw [readByte, readByte, ih]

/-- Read after write, both cases. -/
theorem readByte_writeByte {m : Memory} (hm : Memory.wf m = true) (a a' : Nat) (b : Byte) :
    readByte (writeByte m a b) a' = if a' = a then b else readByte m a' := by
  split
  · rename_i h; subst h; exact readByte_writeByte_same hm _ _
  · rename_i h; exact readByte_writeByte_other h b

theorem mem_consCell {r : Memory} {a : Nat} {b : Byte} {c : Host.Cell} (h : c ∈ consCell a b r) :
    c = (a, b) ∨ c ∈ r := by
  unfold consCell at h
  split at h
  · exact .inr h
  · exact List.mem_cons.mp h

theorem mem_writeByte {m : Memory} {a : Nat} {b : Byte} {c : Host.Cell} (h : c ∈ writeByte m a b) :
    c = (a, b) ∨ c ∈ m := by
  induction m with
  | nil => exact mem_consCell h
  | cons d r ih =>
    obtain ⟨k, v⟩ := d
    rw [writeByte] at h
    split at h
    · exact mem_consCell h
    · split at h
      · exact (mem_consCell h).imp_right (List.mem_cons_of_mem _)
      · rcases List.mem_cons.mp h with rfl | h
        · exact .inr List.mem_cons_self
        · exact (ih h).imp_right (List.mem_cons_of_mem _)

theorem consCell_wf {r : Memory} {a : Nat} {b : Byte} (ha : a < addrSpace) (hr : Memory.wf r = true)
    (h : ∀ c ∈ r, a < c.1) : Memory.wf (consCell a b r) = true := by
  unfold consCell
  split
  · exact hr
  · rename_i hb; exact Memory.wf_cons.mpr ⟨ha, hb, h, hr⟩

/-- A byte write keeps the canonical form. -/
theorem writeByte_wf {m : Memory} (hm : Memory.wf m = true) {a : Nat} (ha : a < addrSpace) (b : Byte) :
    Memory.wf (writeByte m a b) = true := by
  induction m with
  | nil => exact consCell_wf ha rfl (by simp)
  | cons c r ih =>
    obtain ⟨k, v⟩ := c
    obtain ⟨hk1, hv, hk, hr⟩ := Memory.wf_cons.mp hm
    rw [writeByte]
    split
    · rename_i hak
      refine consCell_wf ha hm fun c hc => ?_
      rcases List.mem_cons.mp hc with rfl | hc
      · exact hak
      · exact lt_trans hak (hk c hc)
    · split
      · rename_i hak; subst hak; exact consCell_wf ha hr hk
      · rename_i hlt hne
        refine Memory.wf_cons.mpr ⟨hk1, hv, fun c hc => ?_, ih hr⟩
        rcases mem_writeByte hc with rfl | hc
        · change k < a; omega
        · exact hk c hc

/-- Canonical memories that read alike are equal. -/
theorem Memory.ext {m m' : Memory} (hm : Memory.wf m = true) (hm' : Memory.wf m' = true)
    (h : ∀ a, readByte m a = readByte m' a) : m = m' := by
  induction m generalizing m' with
  | nil =>
    cases m' with
    | nil => rfl
    | cons c r =>
      obtain ⟨k, v⟩ := c
      have := h k
      rw [readByte, readByte, if_pos rfl] at this
      exact absurd this.symm (Memory.wf_cons.mp hm').2.1
  | cons c r ih =>
    obtain ⟨k, v⟩ := c
    obtain ⟨-, hv, hk, hr⟩ := Memory.wf_cons.mp hm
    cases m' with
    | nil =>
      have := h k
      rw [readByte, readByte, if_pos rfl] at this
      exact absurd this hv
    | cons c' r' =>
      obtain ⟨k', v'⟩ := c'
      obtain ⟨-, hv', hk', hr'⟩ := Memory.wf_cons.mp hm'
      have key : k = k' := by
        rcases lt_trichotomy k k' with hlt | heq | hgt
        · have := h k
          rw [readByte, if_pos rfl, readByte_eq_unlisted (m := (k', v') :: r')] at this
          · exact absurd this hv
          · intro c hc
            rcases List.mem_cons.mp hc with rfl | hc
            · exact hlt
            · exact lt_trans hlt (hk' c hc)
        · exact heq
        · have := h k'
          rw [readByte_eq_unlisted (m := (k, v) :: r), readByte, if_pos rfl] at this
          · exact absurd this.symm hv'
          · intro c hc
            rcases List.mem_cons.mp hc with rfl | hc
            · exact hgt
            · exact lt_trans hgt (hk c hc)
      subst key
      have hvv : v = v' := by
        have := h k
        rwa [readByte, if_pos rfl, readByte, if_pos rfl] at this
      subst hvv
      congr 1
      refine ih hr hr' fun a => ?_
      by_cases ha : k = a
      · subst ha; rw [readByte_eq_unlisted hk, readByte_eq_unlisted hk']
      · have := h a
        rwa [readByte, if_neg ha, readByte, if_neg ha] at this

/-! ### Samples -/

theorem mem_sampleAddrs {a n x : Nat} : x ∈ sampleAddrs a n ↔ ∃ i, i < n ∧ x = (a + i) % addrSpace := by
  simp [sampleAddrs, eq_comm]

theorem sampleAddrs_lt {a n x : Nat} (h : x ∈ sampleAddrs a n) : x < addrSpace := by
  obtain ⟨i, -, rfl⟩ := mem_sampleAddrs.mp h
  exact Nat.mod_lt _ (by decide)

@[simp] theorem memRead_length (m : Memory) (a n : Nat) : (memRead m a n).length = n := by
  simp [memRead, sampleAddrs]

theorem memRead_getElem {m : Memory} {a n i : Nat} (h : i < (memRead m a n).length) :
    (memRead m a n)[i] = readByte m ((a + i) % addrSpace) := by
  simp [memRead, sampleAddrs]

/-- A sample write keeps the canonical form. -/
theorem memWrite_wf {m : Memory} (hm : Memory.wf m = true) (a : Nat) (bs : List Byte) :
    Memory.wf (memWrite m a bs) = true := by
  induction bs generalizing m a with
  | nil => exact hm
  | cons b r ih => exact ih (writeByte_wf hm (Nat.mod_lt _ (by decide)) b) _

/-- A sample write leaves every byte outside the sample. -/
theorem readByte_memWrite_other {m : Memory} {a x : Nat} {bs : List Byte} (h : x ∉ sampleAddrs a bs.length) :
    readByte (memWrite m a bs) x = readByte m x := by
  induction bs generalizing m a with
  | nil => rfl
  | cons b r ih =>
    have h0 : x ≠ a % addrSpace := fun e => h (mem_sampleAddrs.mpr ⟨0, by simp, by simpa using e⟩)
    rw [memWrite, ih, readByte_writeByte_other h0]
    intro hx
    obtain ⟨i, hi, rfl⟩ := mem_sampleAddrs.mp hx
    exact h (mem_sampleAddrs.mpr ⟨i + 1, by simpa using hi, by rw [Nat.add_right_comm, Nat.add_assoc]⟩)

/-- A sample write puts byte `i` at `a + i`. -/
theorem readByte_memWrite_same {m : Memory} (hm : Memory.wf m = true) {a : Nat} {bs : List Byte}
    (hlen : bs.length ≤ addrSpace) {i : Nat} (hi : i < bs.length) :
    readByte (memWrite m a bs) ((a + i) % addrSpace) = bs[i] := by
  induction bs generalizing m a i with
  | nil => simp at hi
  | cons b r ih =>
    simp only [List.length_cons] at hi hlen
    have hw := writeByte_wf hm (Nat.mod_lt a (by decide : 0 < addrSpace)) b
    cases i with
    | zero =>
      rw [memWrite, readByte_memWrite_other, Nat.add_zero, readByte_writeByte_same hm]
      · rfl
      · intro hx
        obtain ⟨j, hj, hx⟩ := mem_sampleAddrs.mp hx
        simp only [addrSpace] at hx hlen
        omega
    | succ i =>
      rw [memWrite, show a + (i + 1) = a + 1 + i by omega, ih hw (by omega) (by omega)]
      rfl

end Sys2Proof.Machine
end

