-- ==== Sys2Proof/Laws/Engine.lean ====
section
/-! SUPPORT. What the COPY phase does: the copies it names, byte by byte, and the one lemma about
`runCopy` that the proofs cite. -/

namespace Sys2Proof.Machine

open Sys2Proof

theorem distinctAddrs_iff {l : List Nat} : distinctAddrs l = true ↔ l.Nodup := by
  induction l with
  | nil => simp [distinctAddrs]
  | cons a r ih => simp [distinctAddrs, ih, List.nodup_cons]

/-- `noOverlap`, as facts about the written and the read addresses. -/
theorem noOverlap_iff {w : Nat} {l : List CopyItem} :
    noOverlap w l = true ↔ (writtenAddrs w l).Nodup ∧ ∀ a ∈ readAddrs w l, a ∉ writtenAddrs w l := by
  simp [noOverlap, distinctAddrs_iff]

/-- `allInWindow`, byte by byte. -/
theorem allInWindow_iff {c : Ctx} {w : Nat} {l : List CopyItem} :
    allInWindow c w l = true ↔ ∀ i ∈ l, ∀ a ∈ sampleAddrs i.dst w, inWindow c i.win a = true := by
  simp [allInWindow]

theorem mem_writtenAddrs {w x : Nat} {l : List CopyItem} :
    x ∈ writtenAddrs w l ↔ ∃ i ∈ l, ∃ j, j < w ∧ x = (i.dst + j) % addrSpace := by
  simp [writtenAddrs, mem_sampleAddrs]

theorem mem_readAddrs {w x : Nat} {l : List CopyItem} :
    x ∈ readAddrs w l ↔ ∃ i ∈ l, ∃ j, j < w ∧ x = (i.src + j) % addrSpace := by
  simp [readAddrs, mem_sampleAddrs]

/-! ### The named accesses -/

theorem mem_positions {o : EngOperands} {f : Nat → Nat → List CopyItem} {i : CopyItem} :
    i ∈ positions o f ↔ ∃ y, y < o.lh ∧ ∃ x, x < o.lw ∧ i ∈ f x y := by
  simp [positions]

/-- The accesses of PACKED (R124). -/
theorem mem_packedItems {o : EngOperands} {i : CopyItem} :
    i ∈ copyItems .packed o ↔ ∃ y, y < o.lh ∧ ∃ x, x < o.lw ∧ ∃ k, k < 3 ∧ i = packedItem o x y k := by
  simp [copyItems, mem_positions, packedAt, eq_comm]

/-- The accesses of SPLIT (R125, R126). -/
theorem mem_splitItems {o : EngOperands} {i : CopyItem} :
    i ∈ copyItems .split o ↔ ∃ y, y < o.lh ∧ ∃ x, x < o.lw ∧
      (i = lumaItem o x y ∨ x < o.cw ∧ y < o.ch ∧ ∃ j, j < 2 ∧ i = chromaItem o x y j) := by
  simp only [copyItems, mem_positions, splitAt, List.mem_cons]
  refine exists_congr fun y => and_congr_right fun _ => exists_congr fun x => and_congr_right fun _ =>
    or_congr Iff.rfl ?_
  by_cases h : x < o.cw ∧ y < o.ch
  · simp [h, eq_comm]
  · rw [if_neg h]
    simp only [List.not_mem_nil, false_iff]
    rintro ⟨h1, h2, -⟩
    exact h ⟨h1, h2⟩

/-! ### Copies -/

theorem copyItem_wf {w : Nat} {m : Memory} (hm : Memory.wf m = true) (i : CopyItem) :
    Memory.wf (copyItem w m i) = true := memWrite_wf hm _ _

theorem copyAll_wf {w : Nat} {l : List CopyItem} {m : Memory} (hm : Memory.wf m = true) :
    Memory.wf (copyAll w l m) = true := by
  induction l generalizing m with
  | nil => exact hm
  | cons i r ih => exact ih (copyItem_wf hm i)

theorem readByte_copyItem_other {w x : Nat} {m : Memory} {i : CopyItem} (h : x ∉ sampleAddrs i.dst w) :
    readByte (copyItem w m i) x = readByte m x :=
  readByte_memWrite_other (by rwa [memRead_length])

/-- A byte no copy writes keeps its value. -/
theorem readByte_copyAll_other {w x : Nat} {l : List CopyItem} {m : Memory} (h : x ∉ writtenAddrs w l) :
    readByte (copyAll w l m) x = readByte m x := by
  induction l generalizing m with
  | nil => rfl
  | cons i r ih =>
    simp only [writtenAddrs, List.flatMap_cons, List.mem_append, not_or] at h
    exact (ih (m := copyItem w m i) h.2).trans (readByte_copyItem_other h.1)

theorem readByte_copyItem_same {w j : Nat} {m : Memory} (hm : Memory.wf m = true) (hw : w ≤ addrSpace)
    (i : CopyItem) (hj : j < w) :
    readByte (copyItem w m i) ((i.dst + j) % addrSpace) = readByte m ((i.src + j) % addrSpace) := by
  rw [copyItem, readByte_memWrite_same hm (by simpa using hw) (by simpa using hj), memRead_getElem]

/-- Without overlap, byte `j` of every copy's destination is byte `j` of its source (R60, R124 to
R126). -/
theorem readByte_copyAll_same {w j : Nat} {l : List CopyItem} {m : Memory} (hm : Memory.wf m = true)
    (hw : w ≤ addrSpace) (hno : noOverlap w l = true) {i : CopyItem} (hi : i ∈ l) (hj : j < w) :
    readByte (copyAll w l m) ((i.dst + j) % addrSpace) = readByte m ((i.src + j) % addrSpace) := by
  obtain ⟨hnd, hdis⟩ := noOverlap_iff.mp hno
  clear hno
  induction l generalizing m with
  | nil => simp at hi
  | cons c r ih =>
    have hdst : ∀ {a b : CopyItem}, a ∈ (c :: r) → b = c → (a.src + j) % addrSpace ∉ sampleAddrs b.dst w := by
      rintro a b ha rfl hx
      exact hdis _ (mem_readAddrs.mpr ⟨a, ha, j, hj, rfl⟩)
        (by simp only [writtenAddrs, List.flatMap_cons, List.mem_append]; exact .inl hx)
    have hnd' : (writtenAddrs w r).Nodup := by
      simp only [writtenAddrs, List.flatMap_cons] at hnd; exact (List.nodup_append.mp hnd).2.1
    have hdis' : ∀ a ∈ readAddrs w r, a ∉ writtenAddrs w r := by
      intro a ha hx
      refine hdis a ?_ ?_
      · simp only [readAddrs, List.flatMap_cons, List.mem_append]; exact .inr ha
      · simp only [writtenAddrs, List.flatMap_cons, List.mem_append]; exact .inr hx
    rcases List.mem_cons.mp hi with rfl | hir
    · change readByte (copyAll w r (copyItem w m i)) _ = _
      rw [readByte_copyAll_other, readByte_copyItem_same hm hw i hj]
      intro hx
      simp only [writtenAddrs, List.flatMap_cons] at hnd
      exact (List.nodup_append.mp hnd).2.2 _ (mem_sampleAddrs.mpr ⟨j, hj, rfl⟩) _ hx rfl
    · change readByte (copyAll w r (copyItem w m c)) _ = _
      rw [ih (copyItem_wf hm c) hir hnd' hdis']
      exact readByte_copyItem_other (hdst (List.mem_cons_of_mem _ hir) rfl)

/-! ### Free orders keep the canonical form and touch no other byte -/

theorem copyFree_wf {w draw : Nat} {l : List CopyItem} {m : Memory} (hm : Memory.wf m = true) :
    Memory.wf (copyFree w draw l m) = true := by
  have key : ∀ (as : List Nat) (f : Nat → Byte) (m : Memory), Memory.wf m = true →
      (∀ a ∈ as, a < addrSpace) → Memory.wf (as.foldl (fun m' a => writeByte m' a (f a)) m) = true := by
    intro as f
    induction as with
    | nil => intro m hm _; exact hm
    | cons a r ih =>
      intro m hm h
      exact ih _ (writeByte_wf hm (h a List.mem_cons_self) _) fun b hb => h b (List.mem_cons_of_mem _ hb)
  refine key _ _ _ hm fun a ha => ?_
  obtain ⟨i, -, hx⟩ := List.mem_flatMap.mp ha
  exact sampleAddrs_lt hx

theorem readByte_copyFree_other {w draw x : Nat} {l : List CopyItem} {m : Memory}
    (h : x ∉ writtenAddrs w l) : readByte (copyFree w draw l m) x = readByte m x := by
  have key : ∀ (as : List Nat) (f : Nat → Byte) (m : Memory), x ∉ as →
      readByte (as.foldl (fun m' a => writeByte m' a (f a)) m) x = readByte m x := by
    intro as f
    induction as with
    | nil => intro m _; rfl
    | cons a r ih =>
      intro m h
      rw [List.mem_cons, not_or] at h
      exact (ih _ h.2).trans (readByte_writeByte_other h.1 _)
  exact key _ _ _ h

/-- Everything a COPY phase can do: it faults, or every byte it writes lies in a window the block holds
and the next state is `copyDone` of the state with the new memory. -/
theorem runCopy_cases (t : Topology) (w : Nat) (s : State) :
    (runCopy t w s = .fault .outOfWindow ∧
      allInWindow s.ctx w (copyItems t (engOperands t w s.ctx)) = false) ∨
    ∃ m d, runCopy t w s = .next (copyDone { s with mem := m, draws := d }) ∧
      allInWindow s.ctx w (copyItems t (engOperands t w s.ctx)) = true ∧
      (Memory.wf s.mem = true → Memory.wf m = true) ∧
      (∀ x, x ∉ writtenAddrs w (copyItems t (engOperands t w s.ctx)) → readByte m x = readByte s.mem x) ∧
      (noOverlap w (copyItems t (engOperands t w s.ctx)) = true →
        m = copyAll w (copyItems t (engOperands t w s.ctx)) s.mem ∧ d = s.draws) := by
  rw [runCopy]
  by_cases hw : allInWindow s.ctx w (copyItems t (engOperands t w s.ctx)) = true
  · by_cases hn : noOverlap w (copyItems t (engOperands t w s.ctx)) = true
    · exact .inr ⟨_, s.draws, by simp [hw, hn], hw, copyAll_wf, fun x hx => readByte_copyAll_other hx,
        fun _ => ⟨rfl, rfl⟩⟩
    · exact .inr ⟨copyFree w s.draws _ s.mem, s.draws + 1, by simp [hw, hn], hw, copyFree_wf, fun x hx => readByte_copyFree_other hx,
        fun h => absurd h hn⟩
  · exact .inl ⟨by simp [hw], by simpa using hw⟩

/-- The COPY phase when it stays in its windows and no two accesses overlap. -/
theorem runCopy_next {t : Topology} {w : Nat} {s : State}
    (hw : allInWindow s.ctx w (copyItems t (engOperands t w s.ctx)) = true)
    (hn : noOverlap w (copyItems t (engOperands t w s.ctx)) = true) :
    runCopy t w s =
      .next (copyDone { s with mem := copyAll w (copyItems t (engOperands t w s.ctx)) s.mem }) := by
  simp [runCopy, hw, hn]

end Sys2Proof.Machine
end

