-- ==== Sys2Proof/Laws/State.lean ====
section
/-! SUPPORT. One lemma per field of State per named update, true by definition. -/

namespace Sys2Proof.Machine

open Sys2Proof

@[simp] theorem finish_regs (ok : Bool) (c : Cause) (s : State) :
    (finish ok c s).regs = s.regs := rfl

@[simp] theorem finish_cmd (ok : Bool) (c : Cause) (s : State) :
    (finish ok c s).cmd = s.cmd := rfl

@[simp] theorem finish_status (ok : Bool) (c : Cause) (s : State) :
    (finish ok c s).status = statusFinished ok c := rfl

@[simp] theorem finish_phase (ok : Bool) (c : Cause) (s : State) :
    (finish ok c s).phase = .idle := rfl

@[simp] theorem finish_ctx (ok : Bool) (c : Cause) (s : State) :
    (finish ok c s).ctx = s.ctx := rfl

@[simp] theorem finish_mem (ok : Bool) (c : Cause) (s : State) :
    (finish ok c s).mem = s.mem := rfl

@[simp] theorem finish_agentLocks (ok : Bool) (c : Cause) (s : State) :
    (finish ok c s).agentLocks = s.agentLocks := rfl

@[simp] theorem finish_answers (ok : Bool) (c : Cause) (s : State) :
    (finish ok c s).answers = s.answers := rfl

@[simp] theorem finish_turns (ok : Bool) (c : Cause) (s : State) :
    (finish ok c s).turns = s.turns := rfl

@[simp] theorem finish_lockTrace (ok : Bool) (c : Cause) (s : State) :
    (finish ok c s).lockTrace = s.lockTrace := rfl

@[simp] theorem finish_hostReads (ok : Bool) (c : Cause) (s : State) :
    (finish ok c s).hostReads = s.hostReads := rfl

@[simp] theorem finish_draws (ok : Bool) (c : Cause) (s : State) :
    (finish ok c s).draws = s.draws := rfl

@[simp] theorem accept_regs (v : Word) (s : State) :
    (accept v s).regs = s.regs := rfl

@[simp] theorem accept_cmd (v : Word) (s : State) :
    (accept v s).cmd = v := rfl

@[simp] theorem accept_status (v : Word) (s : State) :
    (accept v s).status = statusAccepted := rfl

@[simp] theorem accept_phase (v : Word) (s : State) :
    (accept v s).phase = .lockMain := rfl

@[simp] theorem accept_ctx (v : Word) (s : State) :
    (accept v s).ctx = snapshot (cmdPresent v) (cmdDepth v) s.regs s.ctx := rfl

@[simp] theorem accept_mem (v : Word) (s : State) :
    (accept v s).mem = s.mem := rfl

@[simp] theorem accept_agentLocks (v : Word) (s : State) :
    (accept v s).agentLocks = s.agentLocks := rfl

@[simp] theorem accept_answers (v : Word) (s : State) :
    (accept v s).answers = s.answers := rfl

@[simp] theorem accept_turns (v : Word) (s : State) :
    (accept v s).turns = s.turns := rfl

@[simp] theorem accept_lockTrace (v : Word) (s : State) :
    (accept v s).lockTrace = s.lockTrace := rfl

@[simp] theorem accept_hostReads (v : Word) (s : State) :
    (accept v s).hostReads = s.hostReads := rfl

@[simp] theorem accept_draws (v : Word) (s : State) :
    (accept v s).draws = s.draws := rfl

@[simp] theorem rejectCommand_regs (v : Word) (s : State) :
    (rejectCommand v s).regs = s.regs := rfl

@[simp] theorem rejectCommand_cmd (v : Word) (s : State) :
    (rejectCommand v s).cmd = v := rfl

@[simp] theorem rejectCommand_status (v : Word) (s : State) :
    (rejectCommand v s).status = statusFinished false .illegalCmd := rfl

@[simp] theorem rejectCommand_phase (v : Word) (s : State) :
    (rejectCommand v s).phase = .idle := rfl

@[simp] theorem rejectCommand_ctx (v : Word) (s : State) :
    (rejectCommand v s).ctx = s.ctx := rfl

@[simp] theorem rejectCommand_mem (v : Word) (s : State) :
    (rejectCommand v s).mem = s.mem := rfl

@[simp] theorem rejectCommand_agentLocks (v : Word) (s : State) :
    (rejectCommand v s).agentLocks = s.agentLocks := rfl

@[simp] theorem rejectCommand_answers (v : Word) (s : State) :
    (rejectCommand v s).answers = s.answers := rfl

@[simp] theorem rejectCommand_turns (v : Word) (s : State) :
    (rejectCommand v s).turns = s.turns := rfl

@[simp] theorem rejectCommand_lockTrace (v : Word) (s : State) :
    (rejectCommand v s).lockTrace = s.lockTrace := rfl

@[simp] theorem rejectCommand_hostReads (v : Word) (s : State) :
    (rejectCommand v s).hostReads = s.hostReads := rfl

@[simp] theorem rejectCommand_draws (v : Word) (s : State) :
    (rejectCommand v s).draws = s.draws := rfl

@[simp] theorem lockAnswered_regs (h : Word) (a : LockAnswer) (r : List LockAnswer) (s : State) :
    (lockAnswered h a r s).regs = s.regs := rfl

@[simp] theorem lockAnswered_cmd (h : Word) (a : LockAnswer) (r : List LockAnswer) (s : State) :
    (lockAnswered h a r s).cmd = s.cmd := rfl

@[simp] theorem lockAnswered_status (h : Word) (a : LockAnswer) (r : List LockAnswer) (s : State) :
    (lockAnswered h a r s).status = s.status := rfl

@[simp] theorem lockAnswered_phase (h : Word) (a : LockAnswer) (r : List LockAnswer) (s : State) :
    (lockAnswered h a r s).phase = s.phase := rfl

@[simp] theorem lockAnswered_ctx (h : Word) (a : LockAnswer) (r : List LockAnswer) (s : State) :
    (lockAnswered h a r s).ctx = s.ctx := rfl

@[simp] theorem lockAnswered_mem (h : Word) (a : LockAnswer) (r : List LockAnswer) (s : State) :
    (lockAnswered h a r s).mem = s.mem := rfl

@[simp] theorem lockAnswered_answers (h : Word) (a : LockAnswer) (r : List LockAnswer) (s : State) :
    (lockAnswered h a r s).answers = r := rfl

@[simp] theorem lockAnswered_turns (h : Word) (a : LockAnswer) (r : List LockAnswer) (s : State) :
    (lockAnswered h a r s).turns = s.turns := rfl

@[simp] theorem lockAnswered_lockTrace (h : Word) (a : LockAnswer) (r : List LockAnswer) (s : State) :
    (lockAnswered h a r s).lockTrace = s.lockTrace ++ [.lock h a] := rfl

@[simp] theorem lockAnswered_hostReads (h : Word) (a : LockAnswer) (r : List LockAnswer) (s : State) :
    (lockAnswered h a r s).hostReads = s.hostReads := rfl

@[simp] theorem lockAnswered_draws (h : Word) (a : LockAnswer) (r : List LockAnswer) (s : State) :
    (lockAnswered h a r s).draws = s.draws := rfl

@[simp] theorem unlockAcked_regs (h : Word) (s : State) :
    (unlockAcked h s).regs = s.regs := rfl

@[simp] theorem unlockAcked_cmd (h : Word) (s : State) :
    (unlockAcked h s).cmd = s.cmd := rfl

@[simp] theorem unlockAcked_status (h : Word) (s : State) :
    (unlockAcked h s).status = s.status := rfl

@[simp] theorem unlockAcked_phase (h : Word) (s : State) :
    (unlockAcked h s).phase = s.phase := rfl

@[simp] theorem unlockAcked_ctx (h : Word) (s : State) :
    (unlockAcked h s).ctx = s.ctx := rfl

@[simp] theorem unlockAcked_mem (h : Word) (s : State) :
    (unlockAcked h s).mem = s.mem := rfl

@[simp] theorem unlockAcked_agentLocks (h : Word) (s : State) :
    (unlockAcked h s).agentLocks = agentRelease h s.agentLocks := rfl

@[simp] theorem unlockAcked_answers (h : Word) (s : State) :
    (unlockAcked h s).answers = s.answers := rfl

@[simp] theorem unlockAcked_turns (h : Word) (s : State) :
    (unlockAcked h s).turns = s.turns := rfl

@[simp] theorem unlockAcked_lockTrace (h : Word) (s : State) :
    (unlockAcked h s).lockTrace = s.lockTrace ++ [.unlock h] := rfl

@[simp] theorem unlockAcked_hostReads (h : Word) (s : State) :
    (unlockAcked h s).hostReads = s.hostReads := rfl

@[simp] theorem unlockAcked_draws (h : Word) (s : State) :
    (unlockAcked h s).draws = s.draws := rfl

@[simp] theorem chromaReleased_regs (h : Word) (s : State) :
    (chromaReleased h s).regs = s.regs := rfl

@[simp] theorem chromaReleased_cmd (h : Word) (s : State) :
    (chromaReleased h s).cmd = s.cmd := rfl

@[simp] theorem chromaReleased_status (h : Word) (s : State) :
    (chromaReleased h s).status = s.status := rfl

@[simp] theorem chromaReleased_phase (h : Word) (s : State) :
    (chromaReleased h s).phase = .unlockMain := rfl

@[simp] theorem chromaReleased_ctx (h : Word) (s : State) :
    (chromaReleased h s).ctx = { s.ctx with chromaHeld := false } := rfl

@[simp] theorem chromaReleased_mem (h : Word) (s : State) :
    (chromaReleased h s).mem = s.mem := rfl

@[simp] theorem chromaReleased_agentLocks (h : Word) (s : State) :
    (chromaReleased h s).agentLocks = agentRelease h s.agentLocks := rfl

@[simp] theorem chromaReleased_answers (h : Word) (s : State) :
    (chromaReleased h s).answers = s.answers := rfl

@[simp] theorem chromaReleased_turns (h : Word) (s : State) :
    (chromaReleased h s).turns = s.turns := rfl

@[simp] theorem chromaReleased_lockTrace (h : Word) (s : State) :
    (chromaReleased h s).lockTrace = s.lockTrace ++ [.unlock h] := rfl

@[simp] theorem chromaReleased_hostReads (h : Word) (s : State) :
    (chromaReleased h s).hostReads = s.hostReads := rfl

@[simp] theorem chromaReleased_draws (h : Word) (s : State) :
    (chromaReleased h s).draws = s.draws := rfl

@[simp] theorem mainReleased_regs (h : Word) (s : State) :
    (mainReleased h s).regs = s.regs := rfl

@[simp] theorem mainReleased_cmd (h : Word) (s : State) :
    (mainReleased h s).cmd = s.cmd := rfl

@[simp] theorem mainReleased_status (h : Word) (s : State) :
    (mainReleased h s).status = statusFinished s.ctx.pendOk s.ctx.pendCause := rfl

@[simp] theorem mainReleased_phase (h : Word) (s : State) :
    (mainReleased h s).phase = .idle := rfl

@[simp] theorem mainReleased_ctx (h : Word) (s : State) :
    (mainReleased h s).ctx = { s.ctx with mainHeld := false } := rfl

@[simp] theorem mainReleased_mem (h : Word) (s : State) :
    (mainReleased h s).mem = s.mem := rfl

@[simp] theorem mainReleased_agentLocks (h : Word) (s : State) :
    (mainReleased h s).agentLocks = agentRelease h s.agentLocks := rfl

@[simp] theorem mainReleased_answers (h : Word) (s : State) :
    (mainReleased h s).answers = s.answers := rfl

@[simp] theorem mainReleased_turns (h : Word) (s : State) :
    (mainReleased h s).turns = s.turns := rfl

@[simp] theorem mainReleased_lockTrace (h : Word) (s : State) :
    (mainReleased h s).lockTrace = s.lockTrace ++ [.unlock h] := rfl

@[simp] theorem mainReleased_hostReads (h : Word) (s : State) :
    (mainReleased h s).hostReads = s.hostReads := rfl

@[simp] theorem mainReleased_draws (h : Word) (s : State) :
    (mainReleased h s).draws = s.draws := rfl

@[simp] theorem copyDone_regs (s : State) :
    (copyDone s).regs = s.regs := rfl

@[simp] theorem copyDone_cmd (s : State) :
    (copyDone s).cmd = s.cmd := rfl

@[simp] theorem copyDone_status (s : State) :
    (copyDone s).status = s.status := rfl

@[simp] theorem copyDone_phase (s : State) :
    (copyDone s).phase = if s.ctx.chromaHeld then .unlockChroma else .unlockMain := rfl

@[simp] theorem copyDone_ctx (s : State) :
    (copyDone s).ctx = { s.ctx with pendOk := true, pendCause := .none } := rfl

@[simp] theorem copyDone_mem (s : State) :
    (copyDone s).mem = s.mem := rfl

@[simp] theorem copyDone_agentLocks (s : State) :
    (copyDone s).agentLocks = s.agentLocks := rfl

@[simp] theorem copyDone_answers (s : State) :
    (copyDone s).answers = s.answers := rfl

@[simp] theorem copyDone_turns (s : State) :
    (copyDone s).turns = s.turns := rfl

@[simp] theorem copyDone_lockTrace (s : State) :
    (copyDone s).lockTrace = s.lockTrace := rfl

@[simp] theorem copyDone_hostReads (s : State) :
    (copyDone s).hostReads = s.hostReads := rfl

@[simp] theorem copyDone_draws (s : State) :
    (copyDone s).draws = s.draws := rfl

@[simp] theorem lockAnswered_grant_agentLocks (h : Word) (b : Addr) (p : Word) (e : Nat) (r : List LockAnswer)
    (s : State) :
    (lockAnswered h (.grant b p e) r s).agentLocks = agentGrant h b p e s.agentLocks := rfl

@[simp] theorem lockAnswered_deny_agentLocks (h : Word) (r : List LockAnswer) (s : State) :
    (lockAnswered h .deny r s).agentLocks = s.agentLocks := rfl

@[simp] theorem agentRelease_head (h : Word) (b : Addr) (p : Word) (e : Nat) (l : List HeldLock) :
    agentRelease h ({ handle := h, base := b, pitch := p, extent := e } :: l) = l := by
  simp [agentRelease]

end Sys2Proof.Machine
end

