-- ==== Sys2Proof/Laws/Coordinator.lean ====
section
/-! SUPPORT. What one step of the block can do, said once; and that the step of the machine on the block's
turn is the sequencer's step. -/

namespace Sys2Proof.Machine

open Sys2Proof

theorem sampleWidth_cases (d : BitVec 8) : sampleWidth d = 1 ∨ sampleWidth d = 2 := by
  unfold sampleWidth; split <;> simp

/-- ENGSEL names the specialization of the context's topology and width (R99). -/
theorem execEngine_engsel {s : State} (hp : s.phase = .copy) (p : BitVec 4) (d : BitVec 8) :
    execEngine (engsel p d) s = runCopy (topology p) (sampleWidth d) s := by
  have h1 : (engsel p d).getLsbD 1 = single p := by
    simp only [engsel, BitVec.getLsbD_append]; simp
  have h0 : (engsel p d).getLsbD 0 = decide (sampleWidth d = 2) := by
    simp only [engsel, BitVec.getLsbD_append]; simp
  rw [execEngine, h1, h0]
  rcases sampleWidth_cases d with hw | hw <;> cases hs : single p <;>
    simp [hw, hs, topology, execEngSplit1, execEngSplit2, execEngPacked1, execEngPacked2, inCopyPhase, hp]

theorem exec_decodeEngsel (e : BitVec 2) (s : State) : exec (decodeEngsel e) s = execEngine e s := by
  rw [decodeEngsel, execEngine]
  cases e.getLsbD 1 <;> cases e.getLsbD 0 <;> rfl

/-- What the block issues decodes to itself. -/
theorem decode_encode_issued {s : State} {i : Instr} (h : issued s = some i) : decode (encode i) = .ok i := by
  have heng : ∀ e : BitVec 2, decode (encode (decodeEngsel e)) = .ok (decodeEngsel e) := by decide
  have hl : ∀ u, decode (encode (.lock u)) = .ok (.lock u) := fun u => by
    simp only [encode, decode, decodeLockmsg, lockWord_op, lockWord_handle]; rfl
  have hu : ∀ u, decode (encode (.unlock u)) = .ok (.unlock u) := fun u => by
    simp only [encode, decode, decodeLockmsg, lockWord_op, lockWord_handle]; rfl
  unfold issued at h
  split at h
  · cases h
  · split at h
    · cases h; exact hl _
    · cases h
  · split at h
    · cases h; exact hl _
    · cases h
  · cases h; exact heng _
  · cases h; exact hu _
  · cases h; exact hu _

/-- Executing what the block issues is the sequencer's step. -/
theorem exec_issued {s : State} {i : Instr} (h : issued s = some i) : exec i s = phaseStep s := by
  unfold issued at h
  unfold phaseStep
  split at h <;> rename_i hp
  · cases h
  · split at h
    · cases h; rename_i hc; simp only [hc, if_true]; rfl
    · cases h
  · split at h
    · cases h; rename_i hc; simp only [hc, if_true]; rfl
    · cases h
  · cases h; exact exec_decodeEngsel _ _
  · cases h; rfl
  · cases h; rfl

/-- In a phase that issues nothing the sequencer's step is internal. -/
theorem phaseStep_of_issued_none {s : State} (h : issued s = none) :
    phaseStep s = .next (internalStep s) := by
  unfold issued at h
  unfold phaseStep
  split at h <;> rename_i hp
  · simp [internalStep, hp]
  · split at h
    · cases h
    · rename_i hc; simp [hc]
  · split at h
    · cases h
    · rename_i hc; simp [hc]
  all_goals cases h

/-- With no turn left the block moves. -/
theorem step_nil {s : State} (h : s.turns = []) : step s = phaseStep s := by
  unfold step fetch
  rw [h]
  cases hi : issued s with
  | none => simp [silentTurn, h, phaseStep_of_issued_none hi]
  | some i => simp [decode_encode_issued hi, exec_issued hi]

/-- On its turn the block moves. -/
theorem step_block {s : State} {r : List Turn} (h : s.turns = .block :: r) :
    step s = phaseStep { s with turns := r } := by
  have key : issued s = issued { s with turns := r } := rfl
  unfold step fetch
  rw [h]
  cases hi : issued s with
  | none => simp [silentTurn, h, phaseStep_of_issued_none (key ▸ hi)]
  | some i => simp [decode_encode_issued hi, exec_issued (key ▸ hi)]

/-- Everything a step of the block can do when it answers a next state: the edges of R166, and waiting
for an answer. -/
theorem phaseStep_cases {s t : State} (h : phaseStep s = .next t) :
    (s.phase = .idle ∧ t = s) ∨
    (s.phase = .lockMain ∧ presentBit s.ctx.present (mainSel s.ctx.present) = false ∧
      t = finish false .mainAbsent s) ∨
    ((s.phase = .lockMain ∨ s.phase = .lockChroma) ∧ s.answers = [] ∧ t = s) ∨
    (s.phase = .lockMain ∧ presentBit s.ctx.present (mainSel s.ctx.present) = true ∧
      ∃ a r, s.answers = a :: r ∧ t = mainAnswered (mainHandle s.ctx) a r s) ∨
    (s.phase = .lockChroma ∧ presentBit s.ctx.present .chroma = false ∧
      t = { s with ctx := { s.ctx with pendOk := false, pendCause := .chromaAbsent }, phase := .unlockMain }) ∨
    (s.phase = .lockChroma ∧ presentBit s.ctx.present .chroma = true ∧
      ∃ a r, s.answers = a :: r ∧ t = chromaAnswered s.ctx.hChroma a r s) ∨
    (s.phase = .copy ∧ ∃ m d, t = copyDone { s with mem := m, draws := d } ∧
      allInWindow s.ctx (sampleWidth s.ctx.depth) (operationItems s.ctx) = true ∧
      (Memory.wf s.mem = true → Memory.wf m = true) ∧
      (∀ x, x ∉ writtenAddrs (sampleWidth s.ctx.depth) (operationItems s.ctx) →
        readByte m x = readByte s.mem x)) ∨
    (s.phase = .unlockChroma ∧ t = chromaReleased s.ctx.hChroma s) ∨
    (s.phase = .unlockMain ∧ t = mainReleased (mainHandle s.ctx) s) := by
  unfold phaseStep at h
  split at h <;> rename_i hp
  · cases h; exact .inl ⟨hp, rfl⟩
  · split at h
    · rename_i hc
      simp only [execLock, hp] at h
      split at h
      · rename_i ha; cases h; exact .inr (.inr (.inl ⟨.inl hp, ha, rfl⟩))
      · rename_i a r ha; cases h
        exact .inr (.inr (.inr (.inl ⟨hp, hc, a, r, ha, rfl⟩)))
    · rename_i hc
      cases h
      refine .inr (.inl ⟨hp, by simpa using hc, by simp [internalStep, hp]⟩)
  · split at h
    · rename_i hc
      simp only [execLock, hp] at h
      split at h
      · rename_i ha; cases h; exact .inr (.inr (.inl ⟨.inr hp, ha, rfl⟩))
      · rename_i a r ha; cases h
        exact .inr (.inr (.inr (.inr (.inr (.inl ⟨hp, hc, a, r, ha, rfl⟩)))))
    · rename_i hc
      cases h
      refine .inr (.inr (.inr (.inr (.inl ⟨hp, by simpa using hc, by simp [internalStep, hp]⟩))))
  · rw [execEngine_engsel hp] at h
    rcases runCopy_cases (topology s.ctx.present) (sampleWidth s.ctx.depth) s with ⟨hf, -⟩ | ⟨m, d, hn, hw, hwf, ho, -⟩
    · rw [hf] at h; cases h
    · rw [hn] at h; cases h
      exact .inr (.inr (.inr (.inr (.inr (.inr (.inl ⟨hp, m, d, rfl, hw, hwf, ho⟩))))))
  · simp only [execUnlock, hp] at h
    cases h
    exact .inr (.inr (.inr (.inr (.inr (.inr (.inr (.inl ⟨hp, rfl⟩)))))))
  · simp only [execUnlock, hp] at h
    cases h
    exact .inr (.inr (.inr (.inr (.inr (.inr (.inr (.inr ⟨hp, rfl⟩)))))))

/-- A step of the block is never refused, and faults only where the COPY phase leaves a window. -/
theorem phaseStep_outcome (s : State) :
    (∃ t, phaseStep s = .next t) ∨
    (s.phase = .copy ∧ phaseStep s = .fault .outOfWindow ∧
      allInWindow s.ctx (sampleWidth s.ctx.depth) (operationItems s.ctx) = false) := by
  unfold phaseStep
  split <;> rename_i hp
  · exact .inl ⟨_, rfl⟩
  · split
    · simp only [execLock, hp]; split <;> exact .inl ⟨_, rfl⟩
    · exact .inl ⟨_, rfl⟩
  · split
    · simp only [execLock, hp]; split <;> exact .inl ⟨_, rfl⟩
    · exact .inl ⟨_, rfl⟩
  · rw [execEngine_engsel hp]
    rcases runCopy_cases (topology s.ctx.present) (sampleWidth s.ctx.depth) s with ⟨hf, hw⟩ | ⟨m, d, hn, -⟩
    · exact .inr ⟨hp, hf, hw⟩
    · exact .inl ⟨_, hn⟩
  · simp only [execUnlock, hp]; exact .inl ⟨_, rfl⟩
  · simp only [execUnlock, hp]; exact .inl ⟨_, rfl⟩

end Sys2Proof.Machine
end

