-- ==== Sys2Proof/Laws/PerInstr.lean ====
section
/-! SUPPORT. Statements made per instruction: decoding the encoding of a well-formed instruction gives it
back (30_encoding.md R91, R99, R101, R105, R108). -/

namespace Sys2Proof.Laws.RoundTrip

open Sys2Proof

/-- No operand of a well-formed instruction is lost between its encoding and its decoding. -/
def Statement (i : Instr) : Prop := i.wf = true → decode (encode i) = .ok i

theorem uplDual8 (pl pc : Bool) (d : BitVec 8) : Statement (.uplDual8 pl pc d) := fun h => by
  have h' : depthNarrow d = true := h
  simp [encode, decode, decodeCmd_cmdWord, h']

theorem uplDual16 (pl pc : Bool) (d : BitVec 8) : Statement (.uplDual16 pl pc d) := fun h => by
  have h' : depthNarrow d = false := by simpa [Instr.wf] using h
  simp [encode, decode, decodeCmd_cmdWord, h']

theorem uplYuv8 (pl pc pr : Bool) (d : BitVec 8) : Statement (.uplYuv8 pl pc pr d) := fun h => by
  have h' : depthNarrow d = true := h
  simp [encode, decode, decodeCmd_cmdWord, h']

theorem uplYuv16 (pl pc pr : Bool) (d : BitVec 8) : Statement (.uplYuv16 pl pc pr d) := fun h => by
  have h' : depthNarrow d = false := by simpa [Instr.wf] using h
  simp [encode, decode, decodeCmd_cmdWord, h']

theorem uplRgb8 (pl pc : Bool) (d : BitVec 8) : Statement (.uplRgb8 pl pc d) := fun h => by
  have h' : depthNarrow d = true := h
  simp [encode, decode, decodeCmd_cmdWord, h']

theorem uplRgb16 (pl pc : Bool) (d : BitVec 8) : Statement (.uplRgb16 pl pc d) := fun h => by
  have h' : depthNarrow d = false := by simpa [Instr.wf] using h
  simp [encode, decode, decodeCmd_cmdWord, h']

theorem engSplit1 : Statement .engSplit1 := fun _ => rfl

theorem engSplit2 : Statement .engSplit2 := fun _ => rfl

theorem engPacked1 : Statement .engPacked1 := fun _ => rfl

theorem engPacked2 : Statement .engPacked2 := fun _ => rfl

theorem lock (h : Word) : Statement (.lock h) := fun _ => by
  simp only [encode, decode, decodeLockmsg, lockWord_op, lockWord_handle]
  rfl

theorem unlock (h : Word) : Statement (.unlock h) := fun _ => by
  simp only [encode, decode, decodeLockmsg, lockWord_op, lockWord_handle]
  rfl

theorem rd (i : BitVec 6) : Statement (.rd i) := fun _ => by
  simp only [encode, decode, decodeRegRead, readWord_rw, readWord_widx]
  rfl

theorem wrCmd (v : Word) : Statement (.wrCmd v) := fun _ => by
  simp only [encode, decode, decodeRegWrite, writeWord_rw, writeWord_widx, writeWord_wdata]
  rfl

theorem wr (i : BitVec 6) (v : Word) : Statement (.wr i v) := fun h => by
  have h' : widxDescriptor i = true := h
  have h0 : (i == 0#6) = false := by
    rw [beq_eq_false_iff_ne]
    rintro rfl
    exact absurd h' (by decide)
  simp [encode, decode, decodeRegWrite, writeWord_rw, writeWord_widx, writeWord_wdata, h0, h']

theorem wrIgnored (i : BitVec 6) (v : Word) : Statement (.wrIgnored i v) := fun h => by
  have h' : i.toNat = 1 ∨ 20 ≤ i.toNat := by simpa [Instr.wf, widxIgnored] using h
  have h0 : (i == 0#6) = false := by
    rw [beq_eq_false_iff_ne]
    rintro rfl
    revert h'
    decide
  have h1 : widxDescriptor i = false := by
    simp only [widxDescriptor, decide_eq_false_iff_not]
    omega
  simp [encode, decode, decodeRegWrite, writeWord_rw, writeWord_widx, writeWord_wdata, h0, h1]

end Sys2Proof.Laws.RoundTrip
end

