-- ==== Sys2Proof/Laws/Run.lean ====
section
/-! SUPPORT. Runs of the machine: with no turn left, steps of the machine are steps of the sequencer. -/

namespace Sys2Proof.Machine

open Sys2Proof

/-- The message of an upload command is its CMD word, and executing it is `runCommand` of that word. -/
theorem exec_of_encode_cmd {i : Instr} {v : Word} (h : encode i = .cmd v) (s : State) :
    exec i s = runCommand v s := by
  cases i <;> simp only [encode, PortWord.cmd.injEq, reduceCtorEq] at h <;> subst h <;> rfl

/-- The CMD word of an upload command has its reserved bits 0. -/
theorem cmdLegal_of_encode {i : Instr} {v : Word} (h : encode i = .cmd v) : cmdLegal v = true := by
  cases i <;> simp only [encode, PortWord.cmd.injEq, reduceCtorEq] at h <;> subst h <;> exact cmdLegal_cmdWord _ _ _ _ _

/-- A command in IDLE: accepted, then run through its phases. -/
theorem exec_command_idle {i : Instr} {v : Word} (h : encode i = .cmd v) {s : State} (hp : s.phase = .idle) :
    exec i s = runPhases 5 (accept v s) := by
  rw [exec_of_encode_cmd h]
  simp only [runCommand, hp, writeCommand, cmdLegal_of_encode h, if_true]

/-- A run whose first step answers a next state goes on from it. -/
theorem run_next {M : Host.Core} {n : Nat} {s t : M.State} (h : M.step s = .next t) :
    M.run (n + 1) s = M.run n t := by
  simp only [Host.Core.run, h]

theorem run_fault {M : Host.Core} {n : Nat} {s : M.State} {f : M.Fault} (h : M.step s = .fault f) :
    M.run (n + 1) s = .fault f := by
  simp only [Host.Core.run, h]

theorem run_refused {M : Host.Core} {n : Nat} {s : M.State} {f : M.Refusal} (h : M.step s = .refused f) :
    M.run (n + 1) s = .refused f := by
  simp only [Host.Core.run, h]

/-- A step of the block uses no turn. -/
theorem phaseStep_turns {s t : State} (h : phaseStep s = .next t) : t.turns = s.turns := by
  rcases phaseStep_cases h with ⟨-, rfl⟩ | ⟨-, -, rfl⟩ | ⟨-, -, rfl⟩ | ⟨-, -, a, r, -, rfl⟩ | ⟨-, -, rfl⟩ |
    ⟨-, -, a, r, -, rfl⟩ | ⟨-, m, d, rfl, -⟩ | ⟨-, rfl⟩ | ⟨-, rfl⟩
  case inr.inr.inr.inl => cases a <;> rfl
  case inr.inr.inr.inr.inr.inl => cases a <;> rfl
  all_goals rfl

/-- With no turn left, running the machine is running the sequencer. -/
theorem run_eq_runPhases (n : Nat) (s : State) (h : s.turns = []) : Host.Core.run core n s = runPhases n s := by
  induction n generalizing s with
  | zero => rfl
  | succ n ih =>
    have hs : core.step s = phaseStep s := step_nil h
    rw [runPhases]
    cases hp : phaseStep s with
    | next t => exact (run_next (hs.trans hp)).trans (ih t ((phaseStep_turns hp).trans h))
    | fault f => exact run_fault (hs.trans hp)
    | refused f => exact run_refused (hs.trans hp)

end Sys2Proof.Machine
end

