-- ==== Sys2Proof/Tests/Slice0.lean ====
section
/-! SUPPORT. Tests against the spec's own examples (spec/95_test_vectors.md) and words written out from its
encodings, and for every statement with hypotheses a state and operands that meet them (`witness_…`). -/

namespace Sys2Proof.Tests

open Sys2Proof Sys2Proof.Machine

/-! ### Well-formedness: an ill-formed term for each check (R101, R182, R183) -/

theorem test_wf_refuses_depth :
    [(Instr.uplDual8 true true 9).wf, (Instr.uplDual16 true true 8).wf, (Instr.uplYuv8 true true true 255).wf,
      (Instr.uplYuv16 false false false 0).wf, (Instr.uplRgb8 true true 9).wf, (Instr.uplRgb16 true true 8).wf] =
    [false, false, false, false, false, false] := by decide

theorem test_wf_refuses_index :
    [(Instr.wr 0 0).wf, (Instr.wr 1 0).wf, (Instr.wr 20 0).wf, (Instr.wr 63 0).wf,
      (Instr.wrIgnored 0 0).wf, (Instr.wrIgnored 2 0).wf, (Instr.wrIgnored 19 0).wf] =
    [false, false, false, false, false, false, false] := by decide

/-- Every row has well-formed terms, at the ends of its ranges (witness of DecodeEncodeRoundTrip). -/
theorem witness_wf :
    ([.uplDual8 true true 8, .uplDual8 false false 0, .uplDual16 true true 9, .uplDual16 false true 255,
      .uplYuv8 true true true 8, .uplYuv16 false false true 9, .uplRgb8 true false 8, .uplRgb16 false true 9,
      .engSplit1, .engSplit2, .engPacked1, .engPacked2, .lock 0, .unlock 0xFFFFFFFF, .rd 63, .wrCmd 0x10810,
      .wr 2 0, .wr 19 7, .wrIgnored 1 0, .wrIgnored 20 0, .wrIgnored 63 0] : List Instr).all Instr.wf = true := by
  decide

/-! ### Decoding: words written out bit by bit -/

/-- R91: reserved[31:16], DEPTH[15:8], reserved[7:4], p_rgb, p_yuv444, p_chroma, p_luma; vectors V20, V21,
V28, V27, V25, V33. -/
theorem test_decode_cmd :
    decode (.cmd 0b0000000000000000_00001000_0000_0011#32) = .ok (.uplDual8 true true 8) ∧
    decode (.cmd 0b0000000000000000_00001010_0000_0011#32) = .ok (.uplDual16 true true 10) ∧
    decode (.cmd 0b0000000000000000_00001000_0000_1111#32) = .ok (.uplYuv8 true true true 8) ∧
    decode (.cmd 0b0000000000000000_00010000_0000_1100#32) = .ok (.uplYuv16 false false true 16) ∧
    decode (.cmd 0b0000000000000000_00001000_0000_1000#32) = .ok (.uplRgb8 false false 8) ∧
    decode (.cmd 0b0000000000000000_11111111_0000_1000#32) = .ok (.uplRgb16 false false 255) := ⟨rfl, rfl, rfl, rfl, rfl, rfl⟩

/-- R91: the DEPTH boundary, V31 (9) beside V20 (8), and one present bit at a time. -/
theorem test_decode_cmd_fields :
    decode (.cmd 0b0000000000000000_00001001_0000_0001#32) = .ok (.uplDual16 true false 9) ∧
    decode (.cmd 0b0000000000000000_00000000_0000_0010#32) = .ok (.uplDual8 false true 0) ∧
    decode (.cmd 0b0000000000000000_00000000_0000_0110#32) = .ok (.uplYuv8 false true false 0) ∧
    decode (.cmd 0b0000000000000000_00000000_0000_1001#32) = .ok (.uplRgb8 true false 0) := ⟨rfl, rfl, rfl, rfl⟩

/-- R100: V36, V37, V38 are no command. -/
theorem test_decode_reserved :
    decode (.cmd 0x00000810#32) = .error .reservedBits ∧ decode (.cmd 0x00010808#32) = .error .reservedBits ∧
    decode (.cmd 0x80000803#32) = .error .reservedBits := ⟨rfl, rfl, rfl⟩

/-- R99: single, then W == 2. -/
theorem test_decode_engsel :
    decode (.engsel 0b00#2) = .ok .engSplit1 ∧ decode (.engsel 0b01#2) = .ok .engSplit2 ∧
    decode (.engsel 0b10#2) = .ok .engPacked1 ∧ decode (.engsel 0b11#2) = .ok .engPacked2 := ⟨rfl, rfl, rfl, rfl⟩

/-- R105: op, handle[31:0]. -/
theorem test_decode_lockmsg :
    decode (.lockmsg 0b0_00000000000000000000000010110100#33) = .ok (.lock 0xB4) ∧
    decode (.lockmsg 0b1_10000000000000000000000010110101#33) = .ok (.unlock 0x800000B5) := ⟨rfl, rfl⟩

/-- R108: rw, widx[5:0], then wdata[31:0] on a write. -/
theorem test_decode_regacc :
    decode (.regRead 0b0_010011#7) = .ok (.rd 19) ∧
    decode (.regWrite 0b1_000000_00000000000000000000100000001000#39) = .ok (.wrCmd 0x808) ∧
    decode (.regWrite 0b1_001010_00000000000000000000011110000000#39) = .ok (.wr 10 0x780) ∧
    decode (.regWrite 0b1_000001_11111111111111111111111111111111#39) = .ok (.wrIgnored 1 0xFFFFFFFF) ∧
    decode (.regWrite 0b1_010100_00000000000000000000000000000000#39) = .ok (.wrIgnored 20 0) := ⟨rfl, rfl, rfl, rfl, rfl⟩

theorem test_decode_malformed_access :
    decode (.regRead 0b1_000000#7) = .error .readSaysWrite ∧
    decode (.regWrite 0b0_000000_00000000000000000000000000000000#39) = .error .writeSaysRead := ⟨rfl, rfl⟩

/-- The table's numbering, in exact lengths and in whole bytes. -/
theorem test_decodeTableWord :
    decodeTableWord 32 0x804 = some (.uplYuv8 false false false 8) ∧ decodeTableWord 2 3 = some .engPacked2 ∧
    decodeTableWord 8 3 = some .engPacked2 ∧ decodeTableWord 7 1 = some (.rd 1) ∧
    decodeTableWord 33 0x1000000A0 = some (.unlock 0xA0) ∧ decodeTableWord 40 0xA0 = some (.lock 0xA0) ∧
    decodeTableWord 39 0x4A00000780 = some (.wr 10 0x780) ∧ decodeTableWord 32 0x810 = none ∧
    decodeTableWord 16 0 = none := by decide

/-! ### Small states -/

/-- The next state of an outcome. -/
def outNext (o : Host.Outcome State Fault Refusal) : Option State :=
  match o with
  | .next t => some t
  | .fault _ => none
  | .refused _ => none

/-- Bytes laid down from an address on. -/
def put (a : Nat) (bs : List Byte) (m : Memory) : Memory := memWrite m a bs

/-- Memory filled with EE. -/
def fillEE (a n : Nat) (m : Memory) : Memory := put a (List.replicate n 0xEE) m

/-- 95_test_vectors.md P1: registers, planes, and the agent's grant with its extent (R186). -/
def p1 : State :=
  { State.reset with
    regs := { Regs.zero with
      src0Lo := 0x1000, src1Lo := 0x1100, src2Lo := 0x1200
      lumaWidth := 2, lumaHeight := 2, lumaStride := 2
      chromaWidth := 2, chromaHeight := 2, chromaStride := 2, hYuv444 := 0xB4, hRgb := 0xB0 }
    mem := put 0x1000 [1, 2, 3, 4] (put 0x1100 [5, 6, 7, 8] (put 0x1200 [9, 10, 11, 12] (fillEE 0x8000 16 [])))
    answers := [.grant 0x8000 8 15] }

/-- V1: stride and pitch wider than the row. -/
def v1 : State :=
  { State.reset with
    regs := { Regs.zero with
      src0Lo := 0x100, src1Lo := 0x200, src2Lo := 0x300
      lumaWidth := 2, lumaHeight := 2, lumaStride := 4
      chromaWidth := 9, chromaHeight := 9, chromaStride := 4, hYuv444 := 0xB4, hRgb := 0xB0 }
    mem := put 0x100 [0x11, 0x12, 0x7A, 0x7B, 0x13, 0x14] (put 0x200 [0x21, 0x22, 0, 0, 0x23, 0x24]
      (put 0x300 [0x31, 0x32, 0, 0, 0x33, 0x34] (fillEE 0x800 24 [])))
    answers := [.grant 0x800 12 19] }

/-- V2: odd pointers, odd window base. -/
def v2 : State :=
  { State.reset with
    regs := { Regs.zero with
      src0Lo := 0x101, src1Lo := 0x201, src2Lo := 0x301
      lumaWidth := 2, lumaHeight := 1, lumaStride := 4, chromaStride := 4, hRgb := 0xB0 }
    mem := put 0x101 [0xFF, 0xFF, 0x01, 0x80] (put 0x201 [0x00, 0x00, 0x34, 0x12]
      (put 0x301 [0xCD, 0xAB, 0xFF, 0x00] (fillEE 0x800 20 [])))
    answers := [.grant 0x803 16 14] }

/-- P5: both yuv444 and rgb present, odd base. -/
def p5 : State :=
  { State.reset with
    regs := { Regs.zero with
      src0Lo := 0x4000, src1Lo := 0x4100, src2Lo := 0x4200
      lumaWidth := 2, lumaHeight := 1, lumaStride := 4, chromaStride := 4, hYuv444 := 0xB4, hRgb := 0xB0 }
    mem := put 0x4000 [0x23, 0x01, 0x24, 0x01] (put 0x4100 [0x00, 0x02, 0x01, 0x02]
      (put 0x4200 [0xFF, 0x03, 0xFE, 0x03] (fillEE 0xC000 18 [])))
    answers := [.grant 0xC001 16 14] }

/-- V7: chroma pitch exactly `2m`. -/
def v7 : State :=
  { State.reset with
    regs := { Regs.zero with
      src0Lo := 0x100, src1Lo := 0x200, src2Lo := 0x300
      lumaWidth := 2, lumaHeight := 2, lumaStride := 2
      chromaWidth := 2, chromaHeight := 2, chromaStride := 2, hLuma := 0xA0, hChroma := 0xA1 }
    mem := put 0x100 [1, 2, 3, 4] (put 0x200 [0x51, 0x52, 0x53, 0x54]
      (put 0x300 [0x91, 0x92, 0x93, 0x94] (fillEE 0x800 4 (fillEE 0x900 12 []))))
    answers := [.grant 0x800 2 4, .grant 0x900 4 9] }

/-- P2: 10-bit, luma 4 by 2, chroma 2 by 1. -/
def p2 : State :=
  { State.reset with
    regs := { Regs.zero with
      src0Lo := 0x2000, src1Lo := 0x2100, src2Lo := 0x2200
      lumaWidth := 4, lumaHeight := 2, lumaStride := 8
      chromaWidth := 2, chromaHeight := 1, chromaStride := 4, hLuma := 0xA0, hChroma := 0xA1 }
    mem := put 0x2000 [0, 1, 1, 1, 2, 1, 3, 1, 0x10, 1, 0x11, 1, 0x12, 1, 0x13, 1] (put 0x2100 [1, 2, 2, 2]
      (put 0x2200 [1, 3, 2, 3] (fillEE 0x9000 32 (fillEE 0xA000 16 []))))
    answers := [.grant 0x9000 16 24, .grant 0xA000 8 8] }

/-- A state in the middle of an operation: the sequencer in `ph`, one command's context. -/
def busy (ph : Phase) (c : Ctx) (s : State) : State := { s with phase := ph, status := statusAccepted, ctx := c }

/-- V7 in COPY. -/
def v7Copy : State := busy .copy (ctxBothGranted 0x803 v7 0x800 2 4 0x900 4 9) v7

/-- P2 in COPY. -/
def p2Copy : State := busy .copy (ctxBothGranted 0xA03 p2 0x9000 16 24 0xA000 8 8) p2

/-- V1 in COPY. -/
def v1Copy : State := busy .copy (ctxMainGranted 0x804 v1 0x800 12 19) v1

/-- V2 in COPY. -/
def v2Copy : State := busy .copy (ctxMainGranted 0x1008 v2 0x803 16 14) v2

/-! ### The six commands (95_test_vectors.md) -/

/-- P1 (scenario S1). -/
theorem test_uplRgb8 :
    (outNext (exec (.uplRgb8 false false 8) p1)).map (fun t =>
      (readReg t 1, readReg t 0, t.lockTrace, memRead t.mem 0x8000 16)) =
    some (0x06, 0x808, [.lock 0xB0 (.grant 0x8000 8 15), .unlock 0xB0],
      [9, 5, 1, 0xEE, 10, 6, 2, 0xEE, 11, 7, 3, 0xEE, 12, 8, 4, 0xEE]) := by decide

/-- V1. -/
theorem test_uplYuv8 :
    (outNext (exec (.uplYuv8 false false false 8) v1)).map (fun t =>
      (readReg t 1, t.lockTrace, memRead t.mem 0x800 24)) =
    some (0x06, [.lock 0xB4 (.grant 0x800 12 19), .unlock 0xB4],
      [0x31, 0x21, 0x11, 0xEE, 0x32, 0x22, 0x12, 0xEE, 0xEE, 0xEE, 0xEE, 0xEE,
       0x33, 0x23, 0x13, 0xEE, 0x34, 0x24, 0x14, 0xEE, 0xEE, 0xEE, 0xEE, 0xEE]) := by decide

/-- V2. -/
theorem test_uplRgb16 :
    (outNext (exec (.uplRgb16 false false 16) v2)).map (fun t =>
      (readReg t 1, t.lockTrace, memRead t.mem 0x800 20)) =
    some (0x06, [.lock 0xB0 (.grant 0x803 16 14), .unlock 0xB0],
      [0xEE, 0xEE, 0xEE, 0xFF, 0xFF, 0x00, 0x00, 0xCD, 0xAB, 0xEE, 0xEE, 0x01, 0x80, 0x34, 0x12, 0xFF, 0x00,
       0xEE, 0xEE, 0xEE]) := by decide

/-- P5: handle 0xB0 never appears. -/
theorem test_uplYuv16 :
    (outNext (exec (.uplYuv16 false false true 16) p5)).map (fun t =>
      (readReg t 1, t.lockTrace, memRead t.mem 0xC000 18)) =
    some (0x06, [.lock 0xB4 (.grant 0xC001 16 14), .unlock 0xB4],
      [0xEE, 0x23, 0x01, 0x00, 0x02, 0xFF, 0x03, 0xEE, 0xEE, 0x24, 0x01, 0x01, 0x02, 0xFE, 0x03, 0xEE, 0xEE,
       0xEE]) := by decide

/-- V7: the displaced slot lands in the next row. -/
theorem test_uplDual8 :
    (outNext (exec (.uplDual8 true true 8) v7)).map (fun t =>
      (readReg t 1, memRead t.mem 0x800 4, memRead t.mem 0x900 12)) =
    some (0x06, [1, 2, 3, 4], [0xEE, 0x91, 0x51, 0x92, 0x52, 0x93, 0x53, 0x94, 0x54, 0xEE, 0xEE, 0xEE]) := by
  decide

/-- P2 (scenario S2). -/
theorem test_uplDual16 :
    (outNext (exec (.uplDual16 true true 10) p2)).map (fun t =>
      (readReg t 1, t.lockTrace, memRead t.mem 0x9000 32, memRead t.mem 0xA000 16)) =
    some (0x06, [.lock 0xA0 (.grant 0x9000 16 24), .lock 0xA1 (.grant 0xA000 8 8), .unlock 0xA1, .unlock 0xA0],
      [0, 1, 1, 1, 2, 1, 3, 1, 0xEE, 0xEE, 0xEE, 0xEE, 0xEE, 0xEE, 0xEE, 0xEE,
       0x10, 1, 0x11, 1, 0x12, 1, 0x13, 1, 0xEE, 0xEE, 0xEE, 0xEE, 0xEE, 0xEE, 0xEE, 0xEE],
      [1, 2, 1, 3, 2, 2, 2, 3, 0xEE, 0xEE, 0xEE, 0xEE, 0xEE, 0xEE, 0xEE, 0xEE]) := by decide

/-- P6 (b), (c), (d), (e), (f): the failure causes; P4: the chroma lock denied. -/
theorem test_failures :
    ((outNext (exec (.uplDual8 false true 8) v7)).map fun t => (readReg t 1, t.lockTrace)) = some (0x42, []) ∧
    ((outNext (exec (.uplDual8 false false 8) v7)).map fun t => (readReg t 1, t.lockTrace)) = some (0x42, []) ∧
    ((outNext (exec (.uplDual8 true false 8) v7)).map fun t => (readReg t 1, t.lockTrace)) =
      some (0x52, [.lock 0xA0 (.grant 0x800 2 4), .unlock 0xA0]) ∧
    ((outNext (exec (.uplDual8 true true 8) { v7 with answers := [.deny] })).map fun t =>
      (readReg t 1, t.lockTrace)) = some (0x12, [.lock 0xA0 .deny]) ∧
    ((outNext (exec (.uplRgb8 false false 8) { p1 with answers := [.deny] })).map fun t =>
      (readReg t 1, t.lockTrace)) = some (0x12, [.lock 0xB0 .deny]) ∧
    ((outNext (exec (.uplDual8 true true 8) { v7 with answers := [.grant 0x800 2 4, .deny] })).map fun t =>
      (readReg t 1, t.lockTrace, t.mem == v7.mem)) =
      some (0x22, [.lock 0xA0 (.grant 0x800 2 4), .lock 0xA1 .deny, .unlock 0xA0], true) := by decide

/-! ### Engine, lock port, registers -/

/-- V7, V2 in the COPY phase: the phase the engine leaves and a byte it writes. -/
theorem test_engine :
    ((outNext (exec .engSplit1 v7Copy)).map fun t => (t.phase, t.ctx.pendOk, readByte t.mem 0x908)) =
      some (.unlockChroma, true, 0x54) ∧
    ((outNext (exec .engSplit2 p2Copy)).map fun t => (t.phase, readByte t.mem 0xA003)) =
      some (.unlockChroma, 3) ∧
    ((outNext (exec .engPacked1 v1Copy)).map fun t => (t.phase, readByte t.mem 0x80C)) =
      some (.unlockMain, 0x33) ∧
    ((outNext (exec .engPacked2 v2Copy)).map fun t => (t.phase, readByte t.mem 0x804)) =
      some (.unlockMain, 0xFF) := by decide

/-- V12: the address functions, bare. -/
theorem test_addresses :
    (let o : EngOperands :=
        { w := 2, off := 0, c0 := 0, c1 := 0x2001, c2 := 0, lw := 9, lh := 9, cw := 9, ch := 9, es0 := 0, es1 := 3
          dMain := 0x9000, epMain := 32, dChroma := 0xA000, epChroma := 0 }
      let q : EngOperands := { o with w := 1, off := 1, epChroma := 8 }
      (srcAddr o 1 2 3, (packedItem o 3 1 2).dst, (chromaItem q 1 1 0).dst, (chromaItem q 1 1 1).dst)) =
    (0x2017, 0x905C, 0xA00B, 0xA00C) := by decide

/-- V11: an address with a carry into bit 32, and a window at the top of memory. -/
theorem test_high_addresses :
    (outNext (exec (.uplDual8 true true 8)
      { State.reset with
        regs := { Regs.zero with src0Lo := 0xFFFFFFFE, lumaWidth := 4, lumaHeight := 1, lumaStride := 4 }
        mem := put 0xFFFFFFFE [0xAA, 0xBB, 0xCC, 0xDD] []
        answers := [.grant 0xFFFFFFFFFFFFFFF0 4 4, .grant 0 0 0] })).map
      (fun t => memRead t.mem 0xFFFFFFFFFFFFFFF0 4) = some [0xAA, 0xBB, 0xCC, 0xDD] := by decide

/-- V49: a present handle of value 0 is sent like any other; R184: the grant is recorded. -/
theorem test_lock :
    (outNext (exec (.lock 0) (busy .lockMain (snapshot 0x8 8 Regs.zero Ctx.zero)
        { State.reset with answers := [.grant 0x40 8 7] }))).map (fun t =>
      (t.phase, t.ctx.mainBase, t.agentLocks, t.lockTrace)) =
    some (.copy, 0x40, [⟨0, 0x40, 8, 7⟩], [.lock 0 (.grant 0x40 8 7)]) := by decide

/-- R156, R185: the chroma surface is released, the main one kept. -/
theorem test_unlock :
    (outNext (exec (.unlock 0xA1) (busy .unlockChroma v7Copy.ctx
        { v7 with agentLocks := [⟨0xA1, 0x900, 4, 9⟩, ⟨0xA0, 0x800, 2, 4⟩] }))).map (fun t =>
      (t.phase, t.ctx.chromaHeld, t.agentLocks, t.lockTrace)) =
    some (.unlockMain, false, [⟨0xA0, 0x800, 2, 4⟩], [.unlock 0xA1]) := by decide

/-- V40, V41, V42, V43, V44. -/
theorem test_registers :
    (readReg State.reset 1, readReg State.reset 0, readReg State.reset 10, readReg State.reset 19) = (0, 0, 0, 0) ∧
    ((outNext (exec (.wr 10 0x780) State.reset)).map fun t => (readReg t 10, readReg t 11)) = some (0x780, 0) ∧
    ((outNext (exec (.wrIgnored 20 0xFFFFFFFF) State.reset)).map fun t => readReg t 20) = some 0 ∧
    ((outNext (exec (.wrIgnored 1 0xFFFFFFFF) { State.reset with status := statusFinished true .none })).map
      fun t => readReg t 1) = some 6 ∧
    ((outNext (exec (.rd 1) { State.reset with status := statusFinished true .none })).map fun t => t.hostReads) =
      some [(1, 6)] := by decide

/-- V45, V46, V47, V48. -/
theorem test_doorbell :
    ((outNext (exec (.wrCmd 0x808) { v7Copy with cmd := 0x803 })).map fun t => (readReg t 0, readReg t 1)) =
      some (0x803, 1) ∧
    ((outNext (exec (.wr 10 9) v7Copy)).map fun t => (readReg t 10, t.ctx.lw)) = some (9, 2) ∧
    ((outNext (exec (.wrCmd 0x808) { v7 with status := statusFinished false .chromaLockDenied })).map
      fun t => (readReg t 1, t.phase)) = some (1, .lockMain) ∧
    ((outNext (exec (.wrCmd 0x810) v7)).map fun t => (readReg t 1, readReg t 0, t.phase, t.lockTrace)) =
      some (0x32, 0x810, .idle, []) := by decide

/-! ### A table word, fetched and run from reset -/

theorem test_withFetchWord :
    ((outNext (step (State.reset.withFetchWord 32 0x808))).map fun t => (t.cmd, t.phase)) =
      some (0x808, .lockMain) ∧
    ((outNext (step (State.reset.withFetchWord 2 2))).map fun t => t.phase) = some .unlockMain ∧
    ((outNext (step (State.reset.withFetchWord 33 0x1000000A0))).map fun t => (t.phase, t.lockTrace)) =
      some (.idle, [.unlock 0xA0]) ∧
    ((outNext (step ({ State.reset with answers := [.deny] }.withFetchWord 33 0xA0))).map fun t =>
      (readReg t 1, t.lockTrace)) = some (0x12, [.lock 0xA0 .deny]) ∧
    ((outNext (step (State.reset.withFetchWord 7 1))).map fun t => t.hostReads) = some [(1, 0)] ∧
    ((outNext (step (State.reset.withFetchWord 39 0x4A00000780))).map fun t => t.regs.lumaWidth) = some 0x780 := by
  decide

/-! ### Witnesses: states and operands that meet the hypotheses of each statement -/

/-- ResetClearsRegistersOnly, ResetWhileBusyRefused. -/
theorem witness_reset :
    (({ p1 with turns := [.reset] } : State).turns = .reset :: [] ∧ p1.phase = .idle) ∧
    (({ v7Copy with turns := [.reset, .block] } : State).turns = .reset :: [.block] ∧ v7Copy.phase ≠ .idle) := by decide

/-- StepExecutesTheDecodedMessage: each kind of turn, its message decoded. -/
theorem witness_step :
    decode (.regRead 0x13#7) = .ok (.rd 19) ∧ ({ p1 with turns := [.read 0x13] } : State).turns = [.read 0x13] ∧
    decode (.regWrite 0x4200000007#39) = .ok (.wr 2 7) ∧
    decode (.cmd 0x808#32) = .ok (.uplRgb8 false false 8) ∧
    issued v7Copy = some .engSplit1 ∧ v7Copy.turns = [] ∧
    issued { v1Copy with turns := [.block] } = some .engPacked1 := ⟨rfl, rfl, rfl, rfl, rfl, rfl, rfl⟩

/-- IssuedByPhase: every phase, every main surface; LockMainPhase, LockChromaPhase: present and absent. -/
theorem witness_phases :
    [(busy .lockMain (snapshot 0x4 8 p1.regs Ctx.zero) p1).ctx.present.getLsbD 2,
      (busy .lockMain (snapshot 0x8 8 p1.regs Ctx.zero) p1).ctx.present.getLsbD 3] = [true, true] ∧
    (presentBit 0x4 (mainSel 0x4), presentBit 0x8 (mainSel 0x8), presentBit 0x3 (mainSel 0x3),
      presentBit 0x2 (mainSel 0x2)) = (true, true, true, false) ∧
    (issued (busy .lockMain (snapshot 0x4 8 p1.regs Ctx.zero) p1),
      issued (busy .lockMain (snapshot 0x8 8 p1.regs Ctx.zero) p1),
      issued (busy .lockMain (snapshot 0x2 8 v7.regs Ctx.zero) v7)) =
      (some (.lock 0xB4), some (.lock 0xB0), none) ∧
    (issued (busy .lockChroma (snapshot 0x3 8 v7.regs Ctx.zero) v7),
      issued (busy .lockChroma (snapshot 0x1 8 v7.regs Ctx.zero) v7),
      issued (busy .unlockChroma v7Copy.ctx v7), issued (busy .unlockMain v7Copy.ctx v7)) =
      (some (.lock 0xA1), none, some (.unlock 0xA1), some (.unlock 0xA0)) ∧ p1.turns = [] ∧ v7.turns = [] ∧
    ((outNext (step (busy .lockMain (snapshot 0x3 8 v7.regs Ctx.zero) v7))).map fun t => t.phase) =
      some .lockChroma := by
  decide

/-- DescriptorWriteReplacesOneRegister, IgnoredWriteChangesNothing, RegisterReadReturnsAndChangesNothing: the
ends of each range. -/
theorem witness_indices :
    (2 ≤ (2 : BitVec 6).toNat ∧ (2 : BitVec 6).toNat ≤ 19) ∧ (2 ≤ (19 : BitVec 6).toNat ∧ (19 : BitVec 6).toNat ≤ 19) ∧
    (1 : BitVec 6).toNat = 1 ∧ 20 ≤ (20 : BitVec 6).toNat ∧ 20 ≤ (63 : BitVec 6).toNat := by decide

/-- DoorbellAcceptsRejectsOrIgnores, IllegalCommandFinishesAtOnce: a legal word, a word with only bit 4 or
only bit 16 set, and each way an illegal word reaches the block. -/
theorem witness_doorbell :
    p1.phase = .idle ∧ v7Copy.phase ≠ .idle ∧
    (0x0000FF0F#32).extractLsb' 4 4 = 0#4 ∧ (0x0000FF0F#32).extractLsb' 16 16 = 0#16 ∧
    (0x00000810#32).extractLsb' 4 4 ≠ 0#4 ∧ (0x00010808#32).extractLsb' 16 16 ≠ 0#16 ∧
    ({ p1 with turns := [.write (1#1 ++ 0#6 ++ 0x810#32)] } : State).turns =
      .write (1#1 ++ 0#6 ++ 0x810#32) :: [] ∧
    ({ p1 with turns := [.command 0x10808] } : State).turns = .command 0x10808 :: [] := by decide

/-- LockTakesTheAnswerOrWaits, LockMainPhase, LockChromaPhase: both phases, with no answer, a denial, a
grant. -/
theorem witness_lock :
    (busy .lockMain (snapshot 0x4 8 p1.regs Ctx.zero) p1).phase = .lockMain ∧
    (busy .lockChroma (snapshot 0x3 8 v7.regs Ctx.zero) v7).phase = .lockChroma ∧
    ({ p1 with answers := [] } : State).answers = [] ∧ ({ p1 with answers := [.deny] } : State).answers = .deny :: [] ∧
    p1.answers = .grant 0x8000 8 15 :: [] := by decide

/-- UnlockReleasesAndFinishes, OutOfPhaseMessagesRefused. -/
theorem witness_unlock :
    (busy .unlockChroma v7Copy.ctx v7).phase = .unlockChroma ∧ (busy .unlockMain v1Copy.ctx v1).phase = .unlockMain ∧
    (p1.phase ≠ .lockMain ∧ p1.phase ≠ .lockChroma) ∧ (v7Copy.phase ≠ .unlockChroma ∧ v7Copy.phase ≠ .unlockMain) ∧
    p1.phase ≠ .copy := by decide

/-- EnginePackedOneCopies, EnginePackedTwoCopies (and ContractKeepsCopiesInWindowsApart): V1 and V2. -/
theorem witness_packed_engine :
    (v1Copy.phase = .copy ∧ Memory.wf v1Copy.mem = true ∧ packedContract 1 v1Copy.ctx) ∧
    (v2Copy.phase = .copy ∧ Memory.wf v2Copy.mem = true ∧ packedContract 2 v2Copy.ctx) := by decide

/-- EngineSplitOneCopies, EngineSplitTwoCopies (and ContractKeepsCopiesInWindowsApart): V7 and P2. -/
theorem witness_split_engine :
    (v7Copy.phase = .copy ∧ Memory.wf v7Copy.mem = true ∧ splitContract 1 v7Copy.ctx) ∧
    (p2Copy.phase = .copy ∧ Memory.wf p2Copy.mem = true ∧ splitContract 2 p2Copy.ctx) := by decide

/-- EngineStaysInWindowsOrFaults: windows exactly as large as R186 asks, and the chroma window one byte
short. -/
theorem witness_windows :
    allInWindow v7Copy.ctx 1 (copyItems .split (engOperands .split 1 v7Copy.ctx)) = true ∧
    allInWindow { v7Copy.ctx with chromaExtent := 8 } 1 (copyItems .split (engOperands .split 1 v7Copy.ctx)) = false ∧
    allInWindow v2Copy.ctx 2 (copyItems .packed (engOperands .packed 2 v2Copy.ctx)) = true ∧
    allInWindow { v1Copy.ctx with mainExtent := 18 } 1 (copyItems .packed (engOperands .packed 1 v1Copy.ctx)) = false := by
  decide

/-- The engine statements outside the contract (V9: odd stride and pitch at W = 2): apart all the same. -/
theorem witness_apart :
    ¬ splitContract 2 { p2Copy.ctx with ls := 5, lw := 1, cw := 0, mainPitch := 7 } ∧
    copiesApart .split 2 { p2Copy.ctx with ls := 5, lw := 1, cw := 0, mainPitch := 7 } ∧
    ¬ packedContract 2 { v2Copy.ctx with lw := 1, mainPitch := 17 } ∧
    copiesApart .packed 2 { v2Copy.ctx with lw := 1, mainPitch := 17 } := by decide

/-- CopyOrderDoesNotMatter: two 2-byte copies apart, one across the end of memory. -/
theorem witness_noOverlap :
    noOverlap 2 [⟨0x100, 0x200, .main⟩, ⟨0x102, 0xFFFFFFFFFFFFFFFF, .main⟩] = true := by decide

/-- OverlappingBytesComeFromSomeOrder: two copies to one byte, and a byte beside it. -/
theorem witness_overlap :
    Memory.wf [] = true ∧ noOverlap 1 [⟨0, 9, .main⟩, ⟨1, 9, .main⟩] = false ∧
    9 ∈ writtenAddrs 1 [⟨0, 9, .main⟩, ⟨1, 9, .main⟩] ∧ 8 ∉ writtenAddrs 1 [⟨0, 9, .main⟩, ⟨1, 9, .main⟩] := by decide

/-- ElementStrideDropsBitZero: an even and an odd stride. -/
theorem witness_stride : (0xFFFFFFFE#32).toNat % 2 = 0 ∧ (5#32).toNat % 2 = 1 := by decide

/-- PackedEightBitCommandsComplete: P1 and V1. -/
theorem witness_packed8 :
    ((8 : BitVec 8).toNat ≤ 8 ∧ p1.phase = .idle ∧ Memory.wf p1.mem = true ∧ p1.answers = .grant 0x8000 8 15 :: [] ∧
      packedContract 1 (ctxMainGranted (cmdWord false false false true 8) p1 0x8000 8 15)) ∧
    (v1.phase = .idle ∧ Memory.wf v1.mem = true ∧ v1.answers = .grant 0x800 12 19 :: [] ∧
      packedContract 1 (ctxMainGranted (cmdWord false false true false 8) v1 0x800 12 19)) := by decide

/-- PackedSixteenBitCommandsComplete: V2 and P5. -/
theorem witness_packed16 :
    (8 < (9 : BitVec 8).toNat ∧ v2.phase = .idle ∧ Memory.wf v2.mem = true ∧ v2.answers = .grant 0x803 16 14 :: [] ∧
      packedContract 2 (ctxMainGranted (cmdWord false false false true 9) v2 0x803 16 14)) ∧
    (p5.phase = .idle ∧ Memory.wf p5.mem = true ∧ p5.answers = .grant 0xC001 16 14 :: [] ∧
      packedContract 2 (ctxMainGranted (cmdWord false false true true 9) p5 0xC001 16 14)) := by decide

/-- DualCommandsComplete: V7 and P2. -/
theorem witness_dual :
    (v7.phase = .idle ∧ Memory.wf v7.mem = true ∧ v7.answers = .grant 0x800 2 4 :: .grant 0x900 4 9 :: [] ∧
      splitContract 1 (ctxBothGranted (cmdWord true true false false 8) v7 0x800 2 4 0x900 4 9)) ∧
    (p2.phase = .idle ∧ Memory.wf p2.mem = true ∧ p2.answers = .grant 0x9000 16 24 :: .grant 0xA000 8 8 :: [] ∧
      splitContract 2 (ctxBothGranted (cmdWord true true false false 9) p2 0x9000 16 24 0xA000 8 8)) := by decide

/-- AbsentSurfacesFail, DeniedMainLockFails, DeniedChromaLockFails, CommandWhileBusyIgnored. -/
theorem witness_failures :
    (v7.phase = .idle ∧ v7.answers = .grant 0x800 2 4 :: [.grant 0x900 4 9]) ∧
    (encode (.uplRgb8 false false 8) = .cmd (cmdWord false false false true 8) ∧
      presentBit ((cmdWord false false false true 8).extractLsb' 0 4)
        (mainSel ((cmdWord false false false true 8).extractLsb' 0 4)) = true ∧
      ({ p1 with answers := [.deny] } : State).answers = .deny :: []) ∧
    (encode (.uplDual16 true false 9) = .cmd (cmdWord true false false false 9) ∧
      presentBit ((cmdWord true false false false 9).extractLsb' 0 4)
        (mainSel ((cmdWord true false false false 9).extractLsb' 0 4)) = true) ∧
    ({ v7 with answers := [.grant 0x800 2 4, .deny] } : State).answers = .grant 0x800 2 4 :: .deny :: [] ∧
    ((outNext (exec (.uplDual8 true true 8) { v7 with answers := [.grant 0x800 2 4, .deny] })).map
      fun t => t.status.cause) = some .chromaLockDenied ∧
    v7Copy.phase ≠ .idle := by decide

/-- CommandRefinesDoorbellAndPhases, OperationTraces, FailedOperationWritesNothing: a success and a failure
of a well-formed command from IDLE. -/
theorem witness_operations :
    (encode (.uplRgb8 false false 8) = .cmd 0x808 ∧ (Instr.uplRgb8 false false 8).wf = true ∧ p1.turns = []) ∧
    ((outNext (exec (.uplRgb8 false false 8) p1)).map fun t => (t.phase, t.status)) =
      some (.idle, statusFinished true .none) ∧
    (encode (.uplDual8 true true 8) = .cmd 0x803 ∧ (Instr.uplDual8 true true 8).wf = true ∧ v7.phase = .idle) ∧
    ((outNext (exec (.uplDual8 true true 8) v7)).map fun t => (t.phase, t.status)) =
      some (.idle, statusFinished true .none) ∧
    ((outNext (exec (.uplDual8 true true 8) { v7 with answers := [.deny] })).map fun t => (t.phase, t.status)) =
      some (.idle, statusFinished false .mainLockDenied) := by decide

/-- UploadTwiceSameMemory: P1 ends in success and its copies do not overlap. -/
theorem witness_twice :
    (outNext (exec (.uplRgb8 false false 8) p1)).map (fun t =>
      (t.status.done, t.status.success, noOverlap (sampleWidth t.ctx.depth) (operationItems t.ctx))) =
    some (true, true, true) := by decide

/-- V7 in COPY, reached from reset: both locks recorded by the agent and in the trace. -/
def v7Locked : State :=
  { v7Copy with
    answers := []
    agentLocks := [⟨0xA1, 0x900, 4, 9⟩, ⟨0xA0, 0x800, 2, 4⟩]
    lockTrace := [.lock 0xA0 (.grant 0x800 2 4), .lock 0xA1 (.grant 0x900 4 9)] }

/-- InvariantHoldsAtReset, StepKeepsTheInvariant, StatusReadsOnlyLegalValues, BlockWritesOnlyHeldWindows: a
state with the invariant whose block step changes memory inside a held window. -/
theorem witness_invariant :
    StateInv v7Locked ∧ v7Locked.turns = [] ∧
    (outNext (step v7Locked)).map (fun t => decide (readByte t.mem 0x901 ≠ readByte v7Locked.mem 0x901)) =
      some true := by decide

/-- OnlyHostWritesChangeDescriptorRegisters: a write that changes a register and a reset that does;
RunningOperationIgnoresRegisters, InertRegistersHaveNoEffect: a step and a command that answer a next
state. -/
theorem witness_registers :
    ((outNext (step { p1 with turns := [.write (writeWord 19 7)] })).map fun t => decide (t.regs ≠ p1.regs)) = some true ∧
    ((outNext (step { p1 with turns := [.reset] })).map fun t => decide (t.regs ≠ p1.regs)) = some true ∧
    ((outNext (step v7Locked)).map fun t => t.phase) = some .unlockChroma ∧
    ((outNext (exec (.uplRgb8 false false 8) p1)).map fun t => t.phase) = some .idle := by decide

/-- OperationEndsWithinFiveSteps: the first phase, two answers at hand, and the invariant. -/
theorem witness_liveness :
    StateInv (busy .lockMain (snapshot 0x3 8 v7.regs Ctx.zero) v7) ∧
    (busy .lockMain (snapshot 0x3 8 v7.regs Ctx.zero) v7).phase ≠ .idle ∧ v7.turns = [] ∧ 2 ≤ v7.answers.length := by
  decide

/-- HostStoreChangesOneByte: the first byte of a window held, a source byte of the operation, and the byte
just past the window. -/
theorem witness_store :
    ({ v7Locked with turns := [.store 0x909 1] } : State).turns = .store 0x909 1 :: [] ∧
    Memory.wf v7Locked.mem = true ∧ v7Locked.phase ≠ .idle ∧
    reservedByte v7Locked.ctx 0x900 = true ∧ reservedByte v7Locked.ctx 0x303 = true ∧
    reservedByte v7Locked.ctx 0x909 = false := by decide

/-- MemoryReadAfterWrite: a 2-byte sample across the end of memory. -/
theorem witness_memory :
    Memory.wf [(3, 1)] = true ∧ addrSpace - 1 < addrSpace ∧ ([0xAA, 0xBB] : List Byte).length = 2 ∧
    memWrite [(3, 1)] (addrSpace - 1) [0xAA, 0xBB] = [(0, 0xBB), (3, 1), (addrSpace - 1, 0xAA)] := by decide

end Sys2Proof.Tests
end

