-- ==== Sys2Proof/Proofs/Step.lean ====
section
/-! The message of each kind of turn is fetched with that turn used up, and a step executes what the fetched
message decodes to. Spec: 00_scope.md R10; 42_host_and_lock_transactions.md R181, R184. -/

namespace Sys2Proof.Machine

open Sys2Proof

theorem fetch_read {s : State} {w : BitVec 7} {r : List Turn} (h : s.turns = .read w :: r) :
    fetch s = some (.regRead w, { s with turns := r }) := by
  simp only [fetch, h]

theorem fetch_write {s : State} {w : BitVec 39} {r : List Turn} (h : s.turns = .write w :: r) :
    fetch s = some (.regWrite w, { s with turns := r }) := by
  simp only [fetch, h]

theorem fetch_command {s : State} {w : BitVec 32} {r : List Turn} (h : s.turns = .command w :: r) :
    fetch s = some (.cmd w, { s with turns := r }) := by
  simp only [fetch, h]

theorem fetch_block {s : State} {r : List Turn} {i : Instr} (h : s.turns = .block :: r)
    (hi : issued s = some i) : fetch s = some (encode i, { s with turns := r }) := by
  simp only [fetch, h, hi, Option.map_some]

theorem fetch_nil {s : State} {i : Instr} (h : s.turns = []) (hi : issued s = some i) :
    fetch s = some (encode i, s) := by
  simp only [fetch, h, hi, Option.map_some]

/-- A step with a message that is an instruction executes that instruction. -/
theorem step_of_fetch {s t : State} {p : PortWord} {i : Instr} (hf : fetch s = some (p, t))
    (hd : decode p = .ok i) : step s = exec i t := by
  simp only [step, hf, hd]

/-- Settles O3: each kind of turn fetches its message, and a step executes what that message decodes to;
what the block issues decodes to itself. -/
theorem stepExecutesTheDecodedMessage : Obligations.StepExecutesTheDecodedMessage :=
  ⟨fun _ _ _ _ ht hd => step_of_fetch (fetch_read ht) hd,
   fun _ _ _ _ ht hd => step_of_fetch (fetch_write ht) hd,
   fun _ _ _ _ ht hd => step_of_fetch (fetch_command ht) hd,
   fun _ _ _ ht hi => step_of_fetch (fetch_block ht hi) (decode_encode_issued hi),
   fun _ _ ht hi => step_of_fetch (fetch_nil ht hi) (decode_encode_issued hi)⟩

end Sys2Proof.Machine
end

