-- ==== Sys2Proof/Proofs/Moves.lean ====
section
/-! What each kind of turn does, said once: the block's own turn, a host access, a command, the reset input
and a host store; and that what every step of the block keeps, a whole command keeps. Spec: 00_scope.md R10;
41_frame_upload_coordinator.md R160 to R166; 42_host_and_lock_transactions.md R180 to R183;
70_reset_and_hazards.md R230, R231. -/

namespace Sys2Proof.Machine

open Sys2Proof

/-! ### CMD writes and commands -/

/-- The three cases of a CMD write (R181). -/
theorem writeCommand_cases (v : Word) (s : State) :
    (s.phase ≠ .idle ∧ writeCommand v s = s) ∨
    (s.phase = .idle ∧ cmdLegal v = true ∧ writeCommand v s = accept v s) ∨
    (s.phase = .idle ∧ cmdLegal v = false ∧ writeCommand v s = rejectCommand v s) := by
  cases hp : s.phase
  case idle => cases hv : cmdLegal v <;> simp [writeCommand, hp, hv]
  all_goals simp [writeCommand, hp]

@[simp] theorem writeCommand_regs (v : Word) (s : State) : (writeCommand v s).regs = s.regs := by
  rcases writeCommand_cases v s with ⟨-, h⟩ | ⟨-, -, h⟩ | ⟨-, -, h⟩ <;> rw [h] <;> rfl

theorem runCommand_busy {v : Word} {s : State} (hp : s.phase ≠ .idle) : runCommand v s = .next s := by
  cases h : s.phase
  case idle => exact absurd h hp
  all_goals simp only [runCommand, h]

theorem runCommand_idle {v : Word} {s : State} (hp : s.phase = .idle) :
    runCommand v s = runPhases 5 (writeCommand v s) := by
  simp only [runCommand, hp]

/-- What every step of the block keeps, several of them keep. -/
theorem runPhases_keeps {P : State → Prop} (hP : ∀ s t, P s → phaseStep s = .next t → P t) {n : Nat}
    {s t : State} (hs : P s) (h : runPhases n s = .next t) : P t := by
  induction n generalizing s with
  | zero => cases h; exact hs
  | succ n ih =>
    rw [runPhases] at h
    cases hu : phaseStep s with
    | next u => rw [hu] at h; exact ih (hP s u hs hu) h
    | fault f => rw [hu] at h; cases h
    | refused f => rw [hu] at h; cases h

/-- What every CMD write and every step of the block keep, a command keeps. -/
theorem runCommand_keeps {P : State → Prop} (hP : ∀ s t, P s → phaseStep s = .next t → P t)
    (hW : ∀ v s, P s → P (writeCommand v s)) {v : Word} {s t : State} (hs : P s)
    (h : runCommand v s = .next t) : P t := by
  by_cases hp : s.phase = .idle
  · rw [runCommand_idle hp] at h
    exact runPhases_keeps hP (hW v s hs) h
  · rw [runCommand_busy hp] at h
    cases h
    exact hs

/-! ### What the host's words decode to -/

/-- A CMD word that decodes is a command (R101). -/
theorem encode_of_decodeCmd {w : BitVec 32} {i : Instr} (h : decodeCmd w = .ok i) :
    ∃ v, encode i = .cmd v := by
  simp only [decodeCmd] at h
  split at h
  · split at h
    · split at h <;> cases h <;> exact ⟨_, rfl⟩
    · split at h <;> split at h <;> cases h <;> exact ⟨_, rfl⟩
  · cases h

/-- A 39-bit word whose rw bit says write is the write of its fields (R108). -/
theorem writeWord_of_fields {w : BitVec 39} (h : w.getLsbD 38 = true) :
    writeWord (w.extractLsb' 32 6) (w.extractLsb' 0 32) = w := by
  apply BitVec.eq_of_getLsbD_eq
  intro j hj
  simp only [writeWord, BitVec.getLsbD_append, BitVec.getLsbD_extractLsb']
  by_cases h32 : j < 32
  · simp [h32]
  · by_cases h38 : j < 38
    · simp [h32, show j - 32 < 6 by omega, show 32 + (j - 32) = j by omega]
    · obtain rfl : j = 38 := by omega
      simp [h]

/-- A register write that decodes is a doorbell, a write to word index 2 to 19, or ignored (R181 to R183). -/
theorem decodeRegWrite_cases {w : BitVec 39} {i : Instr} (h : decodeRegWrite w = .ok i) :
    ∃ x v, w = writeWord x v ∧
      (i = .wrCmd v ∨ i = .wr x v ∧ 2 ≤ x.toNat ∧ x.toNat ≤ 19 ∨ i = .wrIgnored x v) := by
  refine ⟨w.extractLsb' 32 6, w.extractLsb' 0 32, ?_⟩
  simp only [decodeRegWrite] at h
  split at h
  · cases h
  · rename_i hw
    refine ⟨(writeWord_of_fields (by simpa using hw)).symm, ?_⟩
    split at h
    · cases h; exact .inl rfl
    · split at h
      · rename_i hx
        cases h
        exact .inr (.inl ⟨rfl, by simpa [widxDescriptor] using hx⟩)
      · cases h; exact .inr (.inr rfl)

/-! ### A step, by the turn it takes -/

/-- A step on a register read only records what was read (R180). -/
theorem step_read {s t : State} {w : BitVec 7} {r : List Turn} (ht : s.turns = .read w :: r)
    (h : step s = .next t) : ∃ i, t = { s with turns := r, hostReads := s.hostReads ++ [(i, readReg s i)] } := by
  simp only [step, fetch_read ht, decode, decodeRegRead] at h
  split at h
  · rename_i hd
    split at hd
    · cases hd
    · cases hd; cases h; exact ⟨_, rfl⟩
  · cases h

/-- A step on a register write is the doorbell, replaces one descriptor register at word index 2 to 19, or
only uses up the turn (R181 to R183). -/
theorem step_write {s t : State} {w : BitVec 39} {r : List Turn} (ht : s.turns = .write w :: r)
    (h : step s = .next t) :
    ∃ x v, w = writeWord x v ∧
      (t = writeCommand v { s with turns := r } ∨
       (2 ≤ x.toNat ∧ x.toNat ≤ 19) ∧ (∃ g, t = { s with turns := r, regs := setReg s.regs g v }) ∨
       t = { s with turns := r }) := by
  simp only [step, fetch_write ht, decode] at h
  split at h
  · rename_i i hd
    obtain ⟨x, v, hw, hi⟩ := decodeRegWrite_cases hd
    refine ⟨x, v, hw, ?_⟩
    rcases hi with rfl | ⟨rfl, hx⟩ | rfl
    · cases h; exact .inl rfl
    · simp only [exec, execWr] at h
      split at h
      · cases h; exact .inr (.inl ⟨hx, _, rfl⟩)
      · cases h; exact .inr (.inr rfl)
    · cases h; exact .inr (.inr rfl)
  · cases h

/-- A step on a command runs a command, or is the CMD write of an illegal word (R100, R160 to R165). -/
theorem step_command {s t : State} {w : BitVec 32} {r : List Turn} (ht : s.turns = .command w :: r)
    (h : step s = .next t) :
    (∃ v, runCommand v { s with turns := r } = .next t) ∨ t = writeCommand w { s with turns := r } := by
  simp only [step, fetch_command ht, decode] at h
  split at h
  · rename_i i hd
    obtain ⟨v, hv⟩ := encode_of_decodeCmd hd
    exact .inl ⟨v, (exec_of_encode_cmd hv _).symm.trans h⟩
  · cases h; exact .inr rfl

theorem step_reset {s : State} {r : List Turn} (ht : s.turns = .reset :: r) :
    step s = resetInput { s with turns := r } := by
  simp only [step, fetch, silentTurn, ht]

theorem step_store {s : State} {a : Addr} {b : Byte} {r : List Turn} (ht : s.turns = .store a b :: r) :
    step s = hostStore a b { s with turns := r } := by
  simp only [step, fetch, silentTurn, ht]

/-- The state the reset input leaves (R50, R230). -/
def afterReset (s : State) : State :=
  { s with regs := Regs.zero, cmd := 0, status := Status.zero, phase := .idle, ctx := Ctx.zero }

/-- The reset input answers only in IDLE, with the registers and the context cleared (R50, R231). -/
theorem resetInput_next {s t : State} : resetInput s = .next t ↔ s.phase = .idle ∧ afterReset s = t := by
  cases hp : s.phase <;> simp [resetInput, afterReset, hp]

/-- A host store that is answered changes its byte only (R44). -/
theorem hostStore_next {a : Addr} {b : Byte} {s t : State} (h : hostStore a b s = .next t) :
    t = { s with mem := writeByte s.mem a.toNat b } := by
  unfold hostStore at h
  split at h <;> cases h
  rfl

end Sys2Proof.Machine
end

