-- ==== Sys2Proof/Proofs/Invariant.lean ====
section
/-! The invariant: it holds at reset, every step keeps it whoever moves, and it leaves STATUS eight values.
Spec: 10_state.md R33 to R36, R42, R50; 20_memory.md R75; 41_frame_upload_coordinator.md R152 to R159. -/

namespace Sys2Proof.Machine

open Sys2Proof

/-! ### STATUS and the phase -/

theorem statusInv_finished {ok : Bool} {c : Cause} {t : State} (hok : ok = true ↔ c = .none)
    (hs : t.status = statusFinished ok c) (hp : t.phase = .idle) : statusInv t := by
  simp [statusInv, hs, hp, statusFinished, hok]

theorem statusInv_accepted {t : State} (hs : t.status = statusAccepted) (hp : t.phase ≠ .idle) :
    statusInv t := by
  simp [statusInv, hs, hp, statusAccepted]

/-- Between two phases of an operation STATUS stands. -/
theorem statusInv_of_busy {s t : State} (h : statusInv s) (hs : s.phase ≠ .idle) (ht : t.phase ≠ .idle)
    (he : t.status = s.status) : statusInv t := by
  obtain ⟨hbusy, hlegal⟩ := h
  unfold statusInv
  rw [he]
  exact ⟨hbusy.trans (iff_of_true hs ht), hlegal⟩

/-- STATUS is clear, or an operation is accepted, or one is finished with its cause (R35). -/
theorem statusInv_cases {s : State} (h : statusInv s) :
    s.status = Status.zero ∨ s.status = statusAccepted ∨
      ∃ ok c, (ok = true ↔ c = .none) ∧ s.status = statusFinished ok c := by
  obtain ⟨-, hclear, hdone⟩ := h
  generalize s.status = f at hclear hdone ⊢
  obtain ⟨busy, done, success, cause⟩ := f
  cases done
  case false =>
    obtain ⟨rfl, rfl⟩ := hclear rfl
    cases busy
    · exact .inl rfl
    · exact .inr (.inl rfl)
  case true =>
    obtain ⟨rfl, hok⟩ := hdone rfl
    exact .inr (.inr ⟨success, cause, hok, rfl⟩)

/-! ### The lock agent's record and the trace -/

theorem grantsIn_append (l l' : List LockEvent) : grantsIn (l ++ l') = grantsIn l + grantsIn l' := by
  fun_induction grantsIn l with
  | case1 => simp
  | case2 _ _ _ _ r ih => simp only [List.cons_append, grantsIn, ih]; omega
  | case3 _ r ih => simpa only [List.cons_append, grantsIn] using ih
  | case4 _ r ih => simpa only [List.cons_append, grantsIn] using ih

theorem unlocksIn_append (l l' : List LockEvent) : unlocksIn (l ++ l') = unlocksIn l + unlocksIn l' := by
  fun_induction unlocksIn l with
  | case1 => simp
  | case2 _ _ r ih => simpa only [List.cons_append, unlocksIn] using ih
  | case3 _ r ih => simp only [List.cons_append, unlocksIn, ih]; omega

/-- A grant adds its lock to the agent's record as the context takes it (R184). -/
theorem agentInv_granted {s t : State} {h : Word} {b : Addr} {p : Word} {e : Nat} (hs : agentInv s)
    (ha : t.agentLocks = agentGrant h b p e s.agentLocks)
    (ht : t.lockTrace = s.lockTrace ++ [.lock h (.grant b p e)])
    (hc : ctxLocks t.ctx = { handle := h, base := b, pitch := p, extent := e } :: ctxLocks s.ctx) :
    agentInv t := by
  obtain ⟨hrec, hcount⟩ := hs
  refine ⟨by rw [ha, hc, hrec]; rfl, ?_⟩
  rw [ha, ht, grantsIn_append, unlocksIn_append, hcount]
  simp only [grantsIn, unlocksIn, agentGrant, List.length_cons]
  omega

/-- A denial is recorded in the trace and changes no lock (R184). -/
theorem agentInv_denied {s t : State} {h : Word} (hs : agentInv s) (ha : t.agentLocks = s.agentLocks)
    (ht : t.lockTrace = s.lockTrace ++ [.lock h .deny]) (hc : ctxLocks t.ctx = ctxLocks s.ctx) :
    agentInv t := by
  obtain ⟨hrec, hcount⟩ := hs
  refine ⟨by rw [ha, hc, hrec], ?_⟩
  rw [ha, ht, grantsIn_append, unlocksIn_append, hcount]
  simp [grantsIn, unlocksIn]

/-- A release takes the newest lock, which the context gives up, out of the agent's record (R185). -/
theorem agentInv_released {s t : State} {h : Word} {b : Addr} {p : Word} {e : Nat} (hs : agentInv s)
    (ha : t.agentLocks = agentRelease h s.agentLocks) (ht : t.lockTrace = s.lockTrace ++ [.unlock h])
    (hc : ctxLocks s.ctx = { handle := h, base := b, pitch := p, extent := e } :: ctxLocks t.ctx) :
    agentInv t := by
  obtain ⟨hrec, hcount⟩ := hs
  rw [hrec, hc, agentRelease_head] at ha
  refine ⟨ha, ?_⟩
  rw [ha, ht, grantsIn_append, unlocksIn_append, hcount, hrec, hc]
  simp only [grantsIn, unlocksIn, List.length_cons]
  omega

/-- Nothing moved on the lock port. -/
theorem agentInv_of_same {s t : State} (hs : agentInv s) (ha : t.agentLocks = s.agentLocks)
    (ht : t.lockTrace = s.lockTrace) (hc : ctxLocks t.ctx = ctxLocks s.ctx) : agentInv t := by
  unfold agentInv
  rw [ha, ht, hc]
  exact hs

theorem ctxLocks_none {c : Ctx} (hm : c.mainHeld = false) (hc : c.chromaHeld = false) : ctxLocks c = [] := by
  simp [ctxLocks, hm, hc]

/-- The chroma lock is the newest. -/
theorem ctxLocks_chroma {c : Ctx} (hc : c.chromaHeld = true) :
    ctxLocks c =
      { handle := c.hChroma, base := c.chromaBase, pitch := c.chromaPitch, extent := c.chromaExtent } ::
        ctxLocks { c with chromaHeld := false } := by
  simp only [ctxLocks, hc, if_true]
  rfl

/-- With the chroma lock released the main lock is the newest. -/
theorem ctxLocks_main {c : Ctx} (hm : c.mainHeld = true) (hc : c.chromaHeld = false) :
    ctxLocks c =
      { handle := mainHandle c, base := c.mainBase, pitch := c.mainPitch, extent := c.mainExtent } ::
        ctxLocks { c with mainHeld := false } := by
  simp only [ctxLocks, hm, hc, if_true]
  rfl

/-! ### What ends or begins an operation keeps the invariant -/

/-- `finish` with no lock held (R158). -/
theorem stateInv_finish {ok : Bool} {c : Cause} {s : State} (hok : ok = true ↔ c = .none)
    (hm : s.ctx.mainHeld = false) (hc : s.ctx.chromaHeld = false) (ha : agentInv s)
    (hw : Memory.wf s.mem = true) : StateInv (finish ok c s) :=
  ⟨statusInv_finished hok rfl rfl, by simp [heldInv, hm, hc], by simp [pendInv], ha, hw⟩

/-- The doorbell (R181). -/
theorem writeCommand_keeps_stateInv (v : Word) (s : State) (h : StateInv s) : StateInv (writeCommand v s) := by
  rcases writeCommand_cases v s with ⟨-, he⟩ | ⟨hp, -, he⟩ | ⟨hp, -, he⟩ <;> rw [he]
  · exact h
  all_goals
    obtain ⟨-, ⟨hidle, -⟩, -, ha, hw⟩ := h
    obtain ⟨hm, hc⟩ := hidle hp
  · refine ⟨statusInv_accepted rfl (by simp), by simp [heldInv, snapshot], by simp [pendInv], ?_, hw⟩
    exact agentInv_of_same ha rfl rfl ((ctxLocks_none rfl rfl).trans (ctxLocks_none hm hc).symm)
  · exact stateInv_finish (by decide) hm hc ha hw

/-! ### Each phase keeps the invariant -/

/-- LOCK_MAIN answered: a denial finishes, a grant is held (R152). -/
theorem mainAnswered_keeps_stateInv {s : State} {a : LockAnswer} {r : List LockAnswer} (h : StateInv s)
    (hp : s.phase = .lockMain) : StateInv (mainAnswered (mainHandle s.ctx) a r s) := by
  obtain ⟨hst, ⟨-, hlockMain, -⟩, -, ha, hw⟩ := h
  obtain ⟨hm, hc⟩ := hlockMain hp
  cases a with
  | deny => exact stateInv_finish (by decide) hm hc (agentInv_denied ha rfl rfl rfl) hw
  | grant b p e =>
    refine ⟨statusInv_of_busy hst (by simp [hp]) ?_ rfl, ?_, ?_, agentInv_granted ha rfl rfl ?_, hw⟩
    · simp only [mainAnswered]; split <;> simp
    · cases hsingle : single s.ctx.present <;> simp [heldInv, mainAnswered, hc, hsingle]
    · cases hsingle : single s.ctx.present <;> simp [pendInv, mainAnswered, hsingle]
    · simp [mainAnswered, ctxLocks, hm, hc, mainHandle, ctxHandle]

/-- LOCK_CHROMA answered: a denial leaves the main lock to release, a grant is held (R153). -/
theorem chromaAnswered_keeps_stateInv {s : State} {a : LockAnswer} {r : List LockAnswer} (h : StateInv s)
    (hp : s.phase = .lockChroma) : StateInv (chromaAnswered s.ctx.hChroma a r s) := by
  obtain ⟨hst, ⟨-, -, hlockChroma, -⟩, -, ha, hw⟩ := h
  obtain ⟨hm, hc, hsingle⟩ := hlockChroma hp
  cases a with
  | deny =>
    exact ⟨statusInv_of_busy hst (by simp [hp]) (by simp [chromaAnswered]) rfl,
      by simp [heldInv, chromaAnswered, hm, hc], by simp [pendInv, chromaAnswered],
      agentInv_denied ha rfl rfl rfl, hw⟩
  | grant b p e =>
    exact ⟨statusInv_of_busy hst (by simp [hp]) (by simp [chromaAnswered]) rfl,
      by simp [heldInv, chromaAnswered, hm, hsingle], by simp [pendInv, chromaAnswered],
      agentInv_granted ha rfl rfl (by simp [chromaAnswered, ctxLocks, hm, hc, mainHandle, ctxHandle]), hw⟩

/-- LOCK_CHROMA without a chroma surface: the main lock is left to release (R153). -/
theorem chromaAbsent_keeps_stateInv {s : State} (h : StateInv s) (hp : s.phase = .lockChroma) :
    StateInv { s with ctx := { s.ctx with pendOk := false, pendCause := .chromaAbsent }, phase := .unlockMain } := by
  obtain ⟨hst, ⟨-, -, hlockChroma, -⟩, -, ha, hw⟩ := h
  obtain ⟨hm, hc, -⟩ := hlockChroma hp
  exact ⟨statusInv_of_busy hst (by simp [hp]) (by simp) rfl, by simp [heldInv, hm, hc], by simp [pendInv],
    agentInv_of_same ha rfl rfl rfl, hw⟩

/-- COPY done: success pending, on to the locks held (R155). -/
theorem copyDone_keeps_stateInv {s : State} {m : Memory} {d : Nat} (h : StateInv s) (hp : s.phase = .copy)
    (hwf : Memory.wf s.mem = true → Memory.wf m = true) : StateInv (copyDone { s with mem := m, draws := d }) := by
  obtain ⟨hst, ⟨-, -, -, hcopy, -⟩, -, ha, hw⟩ := h
  obtain ⟨hm, -⟩ := hcopy hp
  refine ⟨statusInv_of_busy hst (by simp [hp]) ?_ rfl, ?_, ?_, agentInv_of_same ha rfl rfl rfl, hwf hw⟩
  all_goals cases hc : s.ctx.chromaHeld <;> simp [heldInv, pendInv, hm, hc]

/-- UNLOCK_CHROMA (R156). -/
theorem chromaReleased_keeps_stateInv {s : State} (h : StateInv s) (hp : s.phase = .unlockChroma) :
    StateInv (chromaReleased s.ctx.hChroma s) := by
  obtain ⟨hst, ⟨-, -, -, -, hunlockChroma, -⟩, ⟨hpend, -⟩, ha, hw⟩ := h
  obtain ⟨hm, hc⟩ := hunlockChroma hp
  obtain ⟨hok, hcause⟩ := hpend hp
  exact ⟨statusInv_of_busy hst (by simp [hp]) (by simp) rfl, by simp [heldInv, hm],
    by simp [pendInv, hok, hcause],
    agentInv_released ha rfl rfl (ctxLocks_chroma hc), hw⟩

/-- UNLOCK_MAIN ends the operation with the pending result (R157). -/
theorem mainReleased_keeps_stateInv {s : State} (h : StateInv s) (hp : s.phase = .unlockMain) :
    StateInv (mainReleased (mainHandle s.ctx) s) := by
  obtain ⟨-, ⟨-, -, -, -, -, hunlockMain⟩, ⟨-, hpend⟩, ha, hw⟩ := h
  obtain ⟨hm, hc⟩ := hunlockMain hp
  exact stateInv_finish (hpend hp) rfl hc (agentInv_released ha rfl rfl (ctxLocks_main hm hc)) hw

/-- Every step of the block keeps the invariant (R152 to R158). -/
theorem phaseStep_keeps_stateInv (s t : State) (h : StateInv s) (hstep : phaseStep s = .next t) : StateInv t := by
  rcases phaseStep_cases hstep with ⟨-, rfl⟩ | ⟨hp, -, rfl⟩ | ⟨-, -, rfl⟩ | ⟨hp, -, a, r, -, rfl⟩ | ⟨hp, -, rfl⟩ |
    ⟨hp, -, a, r, -, rfl⟩ | ⟨hp, m, d, rfl, -, hwf, -⟩ | ⟨hp, rfl⟩ | ⟨hp, rfl⟩
  · exact h
  · obtain ⟨-, ⟨-, hlockMain, -⟩, -, ha, hw⟩ := h
    obtain ⟨hm, hc⟩ := hlockMain hp
    exact stateInv_finish (by decide) hm hc ha hw
  · exact h
  · exact mainAnswered_keeps_stateInv h hp
  · exact chromaAbsent_keeps_stateInv h hp
  · exact chromaAnswered_keeps_stateInv h hp
  · exact copyDone_keeps_stateInv h hp hwf
  · exact chromaReleased_keeps_stateInv h hp
  · exact mainReleased_keeps_stateInv h hp

/-! ### The other turns keep the invariant -/

/-- Clearing the registers of an idle machine (R50): the agent holds nothing then, as the new context says. -/
theorem afterReset_keeps_stateInv {s : State} (h : StateInv s) (hp : s.phase = .idle) :
    StateInv (afterReset s) := by
  obtain ⟨-, ⟨hidle, -⟩, -, ha, hw⟩ := h
  obtain ⟨hm, hc⟩ := hidle hp
  exact ⟨by simp [statusInv, afterReset, Status.zero], by simp [heldInv, afterReset, Ctx.zero],
    by simp [pendInv, afterReset],
    agentInv_of_same ha rfl rfl ((ctxLocks_none rfl rfl).trans (ctxLocks_none hm hc).symm), hw⟩

/-- Settles O41: nothing is held, recorded or listed at reset. -/
theorem invariantHoldsAtReset : Obligations.InvariantHoldsAtReset := by
  unfold Obligations.InvariantHoldsAtReset
  decide

/-- Settles O42, by the turn the step takes: the phases of the block one by one, and for the host's turns
the doorbell, the reset input, and updates of parts the invariant does not speak of. -/
theorem stepKeepsTheInvariant : Obligations.StepKeepsTheInvariant := by
  intro s t h hstep
  have hturn : ∀ r, StateInv { s with turns := r } := fun _ => h
  cases ht : s.turns with
  | nil => exact phaseStep_keeps_stateInv s t h ((step_nil ht).symm.trans hstep)
  | cons turn r =>
    cases turn with
    | block => exact phaseStep_keeps_stateInv _ t (hturn r) ((step_block ht).symm.trans hstep)
    | read w =>
      obtain ⟨i, rfl⟩ := step_read ht hstep
      exact h
    | write w =>
      obtain ⟨x, v, -, rfl | ⟨-, g, rfl⟩ | rfl⟩ := step_write ht hstep
      · exact writeCommand_keeps_stateInv v _ (hturn r)
      · exact h
      · exact h
    | command w =>
      obtain ⟨v, hv⟩ | rfl := step_command ht hstep
      · exact runCommand_keeps phaseStep_keeps_stateInv writeCommand_keeps_stateInv (hturn r) hv
      · exact writeCommand_keeps_stateInv w _ (hturn r)
    | reset =>
      obtain ⟨hp, rfl⟩ := resetInput_next.mp ((step_reset ht).symm.trans hstep)
      exact afterReset_keeps_stateInv (hturn r) hp
    | store a b =>
      obtain rfl := hostStore_next ((step_store ht).symm.trans hstep)
      obtain ⟨hst, hheld, hpend, ha, hw⟩ := h
      exact ⟨hst, hheld, hpend, ha, writeByte_wf hw a.isLt b⟩

/-! ### The values of STATUS -/

/-- An operation accepted right after reset. -/
theorem stateInv_accept_reset (v : Word) (hv : cmdLegal v = true) : StateInv (accept v State.reset) := by
  simpa [writeCommand, State.reset, hv] using writeCommand_keeps_stateInv v _ invariantHoldsAtReset

/-- Settles O43: STATUS is clear, accepted or finished with one of the six causes; reset, a command accepted
after reset and `finish` after reset read as each of them. -/
theorem statusReadsOnlyLegalValues : Obligations.StatusReadsOnlyLegalValues := by
  intro v
  have hfinished : ∀ ok c, (ok = true ↔ c = Cause.none) → statusWord (statusFinished ok c) = v →
      ∃ s, StateInv s ∧ readReg s 1 = v := fun ok c hok hv =>
    ⟨finish ok c State.reset, stateInv_finish hok rfl rfl ⟨rfl, rfl⟩ rfl, hv⟩
  constructor
  · rintro ⟨s, ⟨hst, -⟩, rfl⟩
    rw [show readReg s 1 = statusWord s.status from rfl]
    rcases statusInv_cases hst with he | he | ⟨ok, c, hok, he⟩ <;> rw [he]
    · decide
    · decide
    · revert hok
      cases ok <;> cases c <;> decide
  · rintro (rfl | rfl | rfl | rfl | rfl | rfl | rfl | rfl)
    · exact ⟨State.reset, invariantHoldsAtReset, by decide⟩
    · exact ⟨accept 0 State.reset, stateInv_accept_reset 0 (by decide), by decide⟩
    · exact hfinished true .none (by decide) (by decide)
    · exact hfinished false .mainLockDenied (by decide) (by decide)
    · exact hfinished false .chromaLockDenied (by decide) (by decide)
    · exact hfinished false .illegalCmd (by decide) (by decide)
    · exact hfinished false .mainAbsent (by decide) (by decide)
    · exact hfinished false .chromaAbsent (by decide) (by decide)

end Sys2Proof.Machine
end

