-- ==== Sys2Proof/Proofs/DescriptorRegisters.lean ====
section
/-! The descriptor registers: reset clears them, only the host changes them, the running operation never reads
them, and two of them have no effect on any operation. Spec: 10_state.md R20, R28, R29, R41, R50; 20_memory.md
R76; 41_frame_upload_coordinator.md R167. -/

namespace Sys2Proof.Machine

open Sys2Proof

/-! ### Reset -/

@[simp] theorem getReg_zero (n : Reg) : getReg Regs.zero n = 0 := by
  cases n <;> rfl

/-- With CMD, STATUS and the descriptor registers cleared every word index reads 0 (R180). -/
theorem readReg_cleared {s : State} (hr : s.regs = Regs.zero) (hc : s.cmd = 0) (hs : s.status = Status.zero)
    (i : BitVec 6) : readReg s i = 0 := by
  simp only [readReg, hr, hc, hs, getReg_zero]
  split
  · rfl
  · split
    · decide
    · split <;> rfl

theorem phaseStep_idle {s : State} (hp : s.phase = .idle) : phaseStep s = .next s := by
  simp only [phaseStep, hp]

/-- Settles O1: reset clears CMD, STATUS and the descriptor registers, which is all a read can return, and
leaves the machine idle. -/
theorem resetClearsRegistersOnly : Obligations.ResetClearsRegistersOnly := by
  refine ⟨readReg_cleared rfl rfl rfl, rfl, rfl, rfl, fun s r ht hp => ?_⟩
  refine ⟨afterReset { s with turns := r }, (step_reset ht).trans (resetInput_next.mpr ⟨hp, rfl⟩),
    readReg_cleared rfl rfl rfl, rfl, rfl, rfl, rfl, rfl, rfl, rfl, rfl, rfl, rfl, fun hr => ?_⟩
  exact (step_nil hr).trans (phaseStep_idle rfl)

/-! ### Who changes them -/

@[simp] theorem mainAnswered_regs (h : Word) (a : LockAnswer) (r : List LockAnswer) (s : State) :
    (mainAnswered h a r s).regs = s.regs := by
  cases a <;> rfl

@[simp] theorem chromaAnswered_regs (h : Word) (a : LockAnswer) (r : List LockAnswer) (s : State) :
    (chromaAnswered h a r s).regs = s.regs := by
  cases a <;> rfl

/-- The block's own step leaves the descriptor registers. -/
theorem phaseStep_regs {s t : State} (h : phaseStep s = .next t) : t.regs = s.regs := by
  rcases phaseStep_cases h with ⟨-, rfl⟩ | ⟨-, -, rfl⟩ | ⟨-, -, rfl⟩ | ⟨-, -, a, r, -, rfl⟩ | ⟨-, -, rfl⟩ |
    ⟨-, -, a, r, -, rfl⟩ | ⟨-, m, d, rfl, -⟩ | ⟨-, rfl⟩ | ⟨-, rfl⟩
  case inr.inr.inr.inl => exact mainAnswered_regs _ _ _ _
  case inr.inr.inr.inr.inr.inl => exact chromaAnswered_regs _ _ _ _
  all_goals rfl

theorem runCommand_regs {v : Word} {s t : State} (h : runCommand v s = .next t) : t.regs = s.regs :=
  runCommand_keeps (P := fun u => u.regs = s.regs) (fun _ _ hu hstep => (phaseStep_regs hstep).trans hu)
    (fun w u hu => (writeCommand_regs w u).trans hu) rfl h

theorem execLock_regs {a : Word} {s t : State} (h : execLock a s = .next t) : t.regs = s.regs := by
  unfold execLock at h
  split at h
  · split at h <;> cases h
    · rfl
    · exact mainAnswered_regs _ _ _ _
  · split at h <;> cases h
    · rfl
    · exact chromaAnswered_regs _ _ _ _
  all_goals cases h

theorem execUnlock_regs {a : Word} {s t : State} (h : execUnlock a s = .next t) : t.regs = s.regs := by
  unfold execUnlock at h
  split at h <;> cases h <;> rfl

theorem inCopyPhase_next {s t : State} {o : Host.Outcome State Fault Refusal} (h : inCopyPhase s o = .next t) :
    s.phase = .copy ∧ o = .next t := by
  unfold inCopyPhase at h
  split at h
  · rename_i hp; exact ⟨hp, h⟩
  all_goals cases h

theorem execEngine_regs {p : Topology} {w : Nat} {s t : State} (h : inCopyPhase s (runCopy p w s) = .next t) :
    t.regs = s.regs := by
  obtain ⟨-, h⟩ := inCopyPhase_next h
  rcases runCopy_cases p w s with ⟨hf, -⟩ | ⟨m, d, hn, -⟩
  · rw [hf] at h; cases h
  · rw [hn] at h; cases h; rfl

/-- Of all instructions only WR changes a descriptor register. -/
theorem exec_regs {i : Instr} {s t : State} (h : exec i s = .next t) (hi : ∀ x v, i ≠ .wr x v) :
    t.regs = s.regs := by
  cases i with
  | wr x v => exact absurd rfl (hi x v)
  | rd _ | wrIgnored _ _ => cases h; rfl
  | wrCmd v => cases h; exact writeCommand_regs v s
  | lock _ => exact execLock_regs h
  | unlock _ => exact execUnlock_regs h
  | engSplit1 | engSplit2 | engPacked1 | engPacked2 => exact execEngine_regs h
  | uplDual8 _ _ _ | uplDual16 _ _ _ | uplYuv8 _ _ _ _ | uplYuv16 _ _ _ _ | uplRgb8 _ _ _ | uplRgb16 _ _ _ =>
    exact runCommand_regs h

/-- Settles O45, by the instruction and by the turn: every move but a descriptor write and reset leaves the
registers. -/
theorem onlyHostWritesChangeDescriptorRegisters : Obligations.OnlyHostWritesChangeDescriptorRegisters := by
  refine ⟨fun i s t => exec_regs, fun s t h hne => ?_⟩
  cases ht : s.turns with
  | nil => exact absurd (phaseStep_regs ((step_nil ht).symm.trans h)) hne
  | cons turn r =>
    cases turn with
    | block => exact absurd (phaseStep_regs ((step_block ht).symm.trans h)) hne
    | read w =>
      obtain ⟨i, rfl⟩ := step_read ht h
      exact absurd rfl hne
    | write w =>
      obtain ⟨x, v, rfl, rfl | ⟨⟨hlo, hhi⟩, -⟩ | rfl⟩ := step_write ht h
      · exact absurd (writeCommand_regs v _) hne
      · exact .inl ⟨x, v, r, rfl, hlo, hhi⟩
      · exact absurd rfl hne
    | command w =>
      obtain ⟨v, hv⟩ | rfl := step_command ht h
      · exact absurd (runCommand_regs hv) hne
      · exact absurd (writeCommand_regs w _) hne
    | reset => exact .inr ⟨r, rfl⟩
    | store a b =>
      obtain rfl := hostStore_next ((step_store ht).symm.trans h)
      exact absurd rfl hne

/-! ### What the running operation reads -/

/-- `s` with the descriptor registers `r`, and with FRAME_INDEX and DST_FORMAT of its context changed by `f`
and `g`: the parts of a state the sequencer never reads. -/
def withUnread (r : Regs) (f g : Word → Word) (s : State) : State :=
  { s with
    regs := r
    ctx := { s.ctx with frameIndex := f s.ctx.frameIndex, dstFormat := g s.ctx.dstFormat } }

/-- An outcome with its next state mapped. -/
def mapNext (f : State → State) (o : Host.Outcome State Fault Refusal) : Host.Outcome State Fault Refusal :=
  match o with
  | .next t => .next (f t)
  | .fault r => .fault r
  | .refused r => .refused r

section

variable (r : Regs) (f g : Word → Word)

theorem mainAnswered_withUnread (h : Word) (a : LockAnswer) (l : List LockAnswer) (s : State) :
    mainAnswered h a l (withUnread r f g s) = withUnread r f g (mainAnswered h a l s) := by
  cases a <;> rfl

theorem chromaAnswered_withUnread (h : Word) (a : LockAnswer) (l : List LockAnswer) (s : State) :
    chromaAnswered h a l (withUnread r f g s) = withUnread r f g (chromaAnswered h a l s) := by
  cases a <;> rfl

theorem internalStep_withUnread (s : State) :
    internalStep (withUnread r f g s) = withUnread r f g (internalStep s) := by
  have hphase : (withUnread r f g s).phase = s.phase := rfl
  unfold internalStep
  rw [hphase]
  split <;> rfl

theorem execLock_withUnread (h : Word) (s : State) :
    execLock h (withUnread r f g s) = mapNext (withUnread r f g) (execLock h s) := by
  have hphase : (withUnread r f g s).phase = s.phase := rfl
  have hanswers : (withUnread r f g s).answers = s.answers := rfl
  unfold execLock
  rw [hphase, hanswers]
  split
  · split
    · rfl
    · rw [mainAnswered_withUnread]; rfl
  · split
    · rfl
    · rw [chromaAnswered_withUnread]; rfl
  all_goals rfl

theorem execUnlock_withUnread (h : Word) (s : State) :
    execUnlock h (withUnread r f g s) = mapNext (withUnread r f g) (execUnlock h s) := by
  have hphase : (withUnread r f g s).phase = s.phase := rfl
  unfold execUnlock
  rw [hphase]
  split <;> rfl

/-- The operands, the windows and the copies of a COPY phase name neither part (R120, R167). -/
theorem runCopy_withUnread (p : Topology) (w : Nat) (s : State) :
    runCopy p w (withUnread r f g s) = mapNext (withUnread r f g) (runCopy p w s) := by
  have hops : engOperands p w (withUnread r f g s).ctx = engOperands p w s.ctx := rfl
  have hwin : allInWindow (withUnread r f g s).ctx w = allInWindow s.ctx w := rfl
  unfold runCopy
  rw [hops, hwin]
  dsimp only
  split
  · split <;> rfl
  · rfl

/-- A step of the block neither reads nor changes them. -/
theorem phaseStep_withUnread (s : State) :
    phaseStep (withUnread r f g s) = mapNext (withUnread r f g) (phaseStep s) := by
  have hphase : (withUnread r f g s).phase = s.phase := rfl
  have hpresent : (withUnread r f g s).ctx.present = s.ctx.present := rfl
  cases hp : s.phase
  case copy =>
    simp only [phaseStep, hphase, hp]
    rw [execEngine_engsel (hphase.trans hp), execEngine_engsel hp]
    exact runCopy_withUnread r f g _ _ s
  case lockMain | lockChroma =>
    simp only [phaseStep, hphase, hp, hpresent]
    split
    · exact execLock_withUnread r f g _ s
    · rw [internalStep_withUnread]; rfl
  case unlockChroma | unlockMain =>
    simp only [phaseStep, hphase, hp]
    exact execUnlock_withUnread r f g _ s
  case idle => simp only [phaseStep, hphase, hp]; rfl

theorem runPhases_withUnread (n : Nat) (s : State) :
    runPhases n (withUnread r f g s) = mapNext (withUnread r f g) (runPhases n s) := by
  induction n generalizing s with
  | zero => rfl
  | succ n ih =>
    rw [runPhases, runPhases, phaseStep_withUnread]
    cases phaseStep s with
    | next t => exact ih t
    | fault f => rfl
    | refused f => rfl

end

/-- Settles O46: with no turn left the step is the block's, which does not read the registers. -/
theorem runningOperationIgnoresRegisters : Obligations.RunningOperationIgnoresRegisters := by
  intro s r ht
  have key : step { s with regs := r } = mapNext (withUnread r id id) (step s) := by
    rw [step_nil ht, step_nil (s := { s with regs := r }) ht]
    exact phaseStep_withUnread r id id s
  constructor
  · intro t h
    rw [key, h]
    rfl
  · intro e h
    rw [key, h]
    rfl

/-- Acceptance copies FRAME_INDEX and DST_FORMAT into the context and no phase reads them there, so a command
given with other values in them answers the same, but for them (R28, R167). -/
theorem exec_command_otherInert {i : Instr} {v : Word} (hi : encode i = .cmd v) {s : State}
    (hp : s.phase = .idle) (fi df : Word) :
    exec i { s with regs := { s.regs with frameIndex := fi, dstFormat := df } } =
      mapNext (withUnread { s.regs with frameIndex := fi, dstFormat := df } (fun _ => fi) (fun _ => df))
        (exec i s) :=
  calc
    _ = runPhases 5 (withUnread _ (fun _ => fi) (fun _ => df) (accept v s)) :=
      exec_command_idle hi (by exact hp)
    _ = mapNext _ (runPhases 5 (accept v s)) := runPhases_withUnread _ _ _ _ _
    _ = _ := by rw [exec_command_idle hi hp]

/-- Settles O47: in IDLE by `exec_command_otherInert`; while BUSY the command is ignored with any registers. -/
theorem inertRegistersHaveNoEffect : Obligations.InertRegistersHaveNoEffect := by
  intro i v fi df s t hi h
  by_cases hp : s.phase = .idle
  · exact ⟨_, (exec_command_otherInert hi hp fi df).trans (congrArg _ h), rfl, rfl, rfl, rfl, rfl, rfl, rfl⟩
  · rw [exec_of_encode_cmd hi, runCommand_busy hp] at h
    cases h
    exact ⟨_, (exec_of_encode_cmd hi _).trans (runCommand_busy hp), rfl, rfl, rfl, rfl, rfl, rfl, rfl⟩

end Sys2Proof.Machine
end

