-- ==== Sys2Proof/Proofs/MemoryEffects.lean ====
section
/-! Memory: reading after a write, what the block's step may change of it, and the host's store. Spec:
00_scope.md R8; 10_state.md R42, R44; 20_memory.md R60, R72; 70_reset_and_hazards.md R241, R249. -/

namespace Sys2Proof.Machine

open Sys2Proof

/-- A sample written is read back whole (R60). -/
theorem memRead_memWrite {m : Memory} (hm : Memory.wf m = true) (a : Nat) {bs : List Byte}
    (hlen : bs.length ≤ addrSpace) : memRead (memWrite m a bs) a bs.length = bs := by
  refine List.ext_getElem (memRead_length _ _ _) fun i h hi => ?_
  rw [memRead_getElem, readByte_memWrite_same hm hlen hi]

/-- Settles O50: the laws of byte and sample writes together. -/
theorem memoryReadAfterWrite : Obligations.MemoryReadAfterWrite := by
  refine fun m hm => ⟨readByte_writeByte hm, fun a b ha => writeByte_wf hm ha b, ?_⟩
  rintro a n bs i hi rfl hn
  have hlen : bs.length ≤ addrSpace := by simp only [addrSpace]; omega
  exact ⟨readByte_memWrite_same hm hlen hi, memWrite_wf hm a bs, memRead_memWrite hm a hlen⟩

/-! ### The block -/

/-- A byte in a window held, in the words of R42. -/
theorem held_of_inWindow {c : Ctx} {win : Window} {a : Nat} (h : inWindow c win a = true) :
    (c.mainHeld = true ∧ windowHas c.mainBase c.mainExtent a) ∨
    (c.chromaHeld = true ∧ windowHas c.chromaBase c.chromaExtent a) := by
  cases win
  · exact .inl (by simpa [inWindow] using h)
  · exact .inr (by simpa [inWindow] using h)

/-- Every byte the copies write lies in a window held, when none of them faults. -/
theorem inWindow_of_written {c : Ctx} {w a : Nat} {l : List CopyItem} (hl : allInWindow c w l = true)
    (ha : a ∈ writtenAddrs w l) : ∃ win, inWindow c win a = true := by
  obtain ⟨i, hi, hai⟩ := List.mem_flatMap.mp ha
  exact ⟨i.win, allInWindow_iff.mp hl i hi a hai⟩

@[simp] theorem mainAnswered_mem (h : Word) (a : LockAnswer) (r : List LockAnswer) (s : State) :
    (mainAnswered h a r s).mem = s.mem := by
  cases a <;> rfl

@[simp] theorem chromaAnswered_mem (h : Word) (a : LockAnswer) (r : List LockAnswer) (s : State) :
    (chromaAnswered h a r s).mem = s.mem := by
  cases a <;> rfl

/-- A step of the block changes memory only in COPY, and there only bytes in a window held. -/
theorem phaseStep_mem {s t : State} (h : phaseStep s = .next t) :
    t.mem = s.mem ∨
    (s.phase = .copy ∧ ∀ a, readByte t.mem a ≠ readByte s.mem a → ∃ win, inWindow s.ctx win a = true) := by
  rcases phaseStep_cases h with ⟨-, rfl⟩ | ⟨-, -, rfl⟩ | ⟨-, -, rfl⟩ | ⟨-, -, a, r, -, rfl⟩ | ⟨-, -, rfl⟩ |
    ⟨-, -, a, r, -, rfl⟩ | ⟨hp, m, d, rfl, hwin, -, hother⟩ | ⟨-, rfl⟩ | ⟨-, rfl⟩
  case inr.inr.inr.inl => exact .inl (mainAnswered_mem _ _ _ _)
  case inr.inr.inr.inr.inr.inl => exact .inl (chromaAnswered_mem _ _ _ _)
  case inr.inr.inr.inr.inr.inr.inl =>
    refine .inr ⟨hp, fun a hne => inWindow_of_written hwin ?_⟩
    by_contra ha
    exact hne (hother a ha)
  all_goals exact .inl rfl

/-- Settles O44: the block's turn is a step of the sequencer, which writes only where the COPY phase did not
fault. -/
theorem blockWritesOnlyHeldWindows : Obligations.BlockWritesOnlyHeldWindows := by
  have key : ∀ {s t : State} {a : Nat}, phaseStep s = .next t → readByte t.mem a ≠ readByte s.mem a →
      s.phase = .copy ∧
      ((s.ctx.mainHeld = true ∧ windowHas s.ctx.mainBase s.ctx.mainExtent a) ∨
       (s.ctx.chromaHeld = true ∧ windowHas s.ctx.chromaBase s.ctx.chromaExtent a)) := by
    intro s t a h hne
    rcases phaseStep_mem h with he | ⟨hp, hwin⟩
    · exact absurd (by rw [he]) hne
    · obtain ⟨win, hin⟩ := hwin a hne
      exact ⟨hp, held_of_inWindow hin⟩
  intro s t r hturn h a hne
  rcases hturn with ht | ht
  · exact key ((step_nil ht).symm.trans h) hne
  · exact key (s := { s with turns := r }) ((step_block ht).symm.trans h) hne

/-! ### The host -/

/-- Settles O49: a store that does not race is one byte write; one that does is refused (R241, U5). -/
theorem hostStoreChangesOneByte : Obligations.HostStoreChangesOneByte := by
  intro s a b r ht hm
  constructor
  · intro hfree
    have hno : ¬ (s.phase ≠ .idle ∧ reservedByte s.ctx a.toNat = true) := by
      rintro ⟨hp, hres⟩
      rcases hfree with h | h
      · exact hp h
      · rw [h] at hres; cases hres
    exact ⟨{ s with turns := r, mem := writeByte s.mem a.toNat b }, (step_store ht).trans (if_neg hno), rfl,
      fun x => readByte_writeByte hm a.toNat x b⟩
  · intro hp hres
    exact (step_store ht).trans (if_pos ⟨hp, hres⟩)

end Sys2Proof.Machine
end

