-- ==== Sys2Proof/Proofs/AccessCounts.lean ====
section
/-! How many accesses COPY names, to each window. Spec: 20_memory.md R66, R67. -/

namespace Sys2Proof.Machine

open Sys2Proof

/-- A guard inside a range passes as often as the smaller bound says. -/
theorem sum_range_guard (k n c : Nat) :
    ((List.range n).map fun x => if x < k then c else 0).sum = min k n * c := by
  induction n with
  | zero => simp
  | succ n ih =>
    rw [List.range_succ, List.map_append, List.sum_append, ih]
    by_cases hnk : n < k
    · rw [min_eq_right (Nat.le_of_lt hnk), min_eq_right (Nat.succ_le_of_lt hnk), Nat.succ_mul]
      simp [hnk]
    · rw [min_eq_left (by omega), min_eq_left (by omega)]
      simp [hnk]

theorem filter_positions (o : EngOperands) (p : CopyItem → Bool) (f : Nat → Nat → List CopyItem) :
    (positions o f).filter p = positions o fun x y => (f x y).filter p := by
  simp only [positions, List.filter_flatMap]

/-- `n` copies at each position left of column `X` and above row `Y`, none elsewhere. -/
theorem length_positions {o : EngOperands} {f : Nat → Nat → List CopyItem} {X Y n : Nat}
    (h : ∀ x y, x < o.lw → y < o.lh → (f x y).length = if y < Y then if x < X then n else 0 else 0) :
    (positions o f).length = n * min X o.lw * min Y o.lh := by
  have hrow : ∀ y ∈ List.range o.lh,
      ((List.range o.lw).flatMap fun x => f x y).length = if y < Y then min X o.lw * n else 0 := by
    intro y hy
    rw [List.length_flatMap,
      List.map_congr_left fun x hx => h x y (List.mem_range.mp hx) (List.mem_range.mp hy)]
    by_cases hY : y < Y
    · simp only [if_pos hY, sum_range_guard]
    · simp [hY]
  calc (positions o f).length = min Y o.lh * (min X o.lw * n) := by
        rw [positions, List.length_flatMap, List.map_congr_left hrow, sum_range_guard]
    _ = n * min X o.lw * min Y o.lh := by ring

/-- A position of SPLIT names one copy to the main window (R125). -/
theorem filter_main_splitAt (o : EngOperands) (x y : Nat) :
    ((splitAt o x y).filter fun i => i.win = .main) = [lumaItem o x y] := by
  by_cases hc : x < o.cw ∧ y < o.ch <;> simp [splitAt, lumaItem, chromaItem, hc, List.range_succ]

/-- A position of SPLIT names two copies to the chroma window inside the chroma bound, none outside it
(R126). -/
theorem length_filter_chroma_splitAt (o : EngOperands) (x y : Nat) :
    ((splitAt o x y).filter fun i => i.win = .chroma).length =
      if y < o.ch then if x < o.cw then 2 else 0 else 0 := by
  by_cases hx : x < o.cw <;> by_cases hy : y < o.ch <;>
    simp [splitAt, lumaItem, chromaItem, hx, hy, List.range_succ]

/-- Settles O28: the counts at one position, summed over the luma rectangle. -/
theorem accessCounts : Obligations.AccessCounts := by
  intro o
  refine ⟨?packed, ?main, ?chroma⟩
  case packed =>
    have h := length_positions (o := o) (f := packedAt o) (X := o.lw) (Y := o.lh) (n := 3)
      fun x y hx hy => by simp [packedAt, hx, hy]
    simpa [copyItems] using h
  case main =>
    have h := length_positions (o := o) (X := o.lw) (Y := o.lh) (n := 1)
      (f := fun x y => (splitAt o x y).filter fun i => i.win = .main)
      fun x y hx hy => by simp [filter_main_splitAt, hx, hy]
    simpa [copyItems, filter_positions] using h
  case chroma =>
    rw [copyItems, filter_positions]
    exact length_positions fun x y _ _ => length_filter_chroma_splitAt o x y

end Sys2Proof.Machine
end

