-- ==== Sys2Proof/Proofs/AccessOrder.lean ====
section
/-! The order of the accesses in COPY: it cannot matter while no two accesses meet, and where they meet the
free value is one an order leaves. Spec: 20_memory.md R66, R71; 93_implementation_defined.md U6. -/

namespace Sys2Proof.Machine

open Sys2Proof

/-! ### One access -/

/-- What one access does: nothing when no copy is pending, else a copy reads its sample, or writes the sample
it has read and is finished. -/
theorem accessPicked_cases (w pick : Nat) (l : List PendingCopy) (m : Memory) :
    (l = [] ∧ accessPicked w pick l m = ([], m)) ∨
    ∃ a q b, l = a ++ q :: b ∧
      ((q.data = none ∧
        accessPicked w pick l m = (a ++ { q with data := some (memRead m q.item.src w) } :: b, m)) ∨
       ∃ bs, q.data = some bs ∧ accessPicked w pick l m = (a ++ b, memWrite m q.item.dst bs)) := by
  by_cases hl : l = []
  · subst hl
    exact .inl ⟨rfl, by simp [accessPicked]⟩
  · have hi : pick % l.length < l.length := Nat.mod_lt _ (List.length_pos_iff.mpr hl)
    refine .inr ⟨l.take (pick % l.length), l[pick % l.length], l.drop (pick % l.length + 1), by simp, ?_⟩
    rw [accessPicked, List.getElem?_eq_getElem hi]
    dsimp only
    cases hd : l[pick % l.length].data with
    | none => exact .inl ⟨rfl, by rw [List.set_eq_take_append_cons_drop, if_pos hi]⟩
    | some bs => exact .inr ⟨bs, rfl, by rw [List.eraseIdx_eq_take_drop_succ]⟩

/-- How many accesses a pending copy still has to make. -/
def PendingCopy.accessesLeft (q : PendingCopy) : Nat := if q.data.isNone then 2 else 1

/-- How many accesses the pending copies still have to make. -/
def accessesLeft (l : List PendingCopy) : Nat := (l.map PendingCopy.accessesLeft).sum

theorem accessesLeft_middle (a b : List PendingCopy) (q : PendingCopy) :
    accessesLeft (a ++ q :: b) = q.accessesLeft + accessesLeft (a ++ b) :=
  (List.perm_middle.map _).sum_eq

/-- Each access is one fewer. -/
theorem accessesLeft_accessPicked (w pick : Nat) (l : List PendingCopy) (m : Memory) :
    accessesLeft (accessPicked w pick l m).1 = accessesLeft l - 1 := by
  rcases accessPicked_cases w pick l m with ⟨rfl, hr⟩ | ⟨a, q, b, rfl, ⟨hd, hr⟩ | ⟨bs, hd, hr⟩⟩
  · rw [hr]; rfl
  · have hbefore : q.accessesLeft = 2 := by simp [PendingCopy.accessesLeft, hd]
    have hafter : ({ q with data := some (memRead m q.item.src w) } : PendingCopy).accessesLeft = 1 := rfl
    rw [hr, accessesLeft_middle, accessesLeft_middle, hbefore, hafter]
    omega
  · have hbefore : q.accessesLeft = 1 := by simp [PendingCopy.accessesLeft, hd]
    rw [hr, accessesLeft_middle, hbefore, Nat.add_sub_cancel_left]

theorem eq_nil_of_accessesLeft {l : List PendingCopy} (h : accessesLeft l = 0) : l = [] := by
  cases l with
  | nil => rfl
  | cons q r =>
    have hq : 0 < q.accessesLeft := by unfold PendingCopy.accessesLeft; split <;> decide
    simp only [accessesLeft, List.map_cons, List.sum_cons] at h
    omega

theorem accessesLeft_start (l : List CopyItem) :
    accessesLeft (l.map fun i => { item := i, data := none }) = 2 * l.length := by
  have hleft : ∀ i : CopyItem, PendingCopy.accessesLeft { item := i, data := none } = 2 := fun _ => rfl
  simp [accessesLeft, Function.comp_def, hleft, Nat.mul_comm]

/-! ### Copies that do not overlap -/

/-- The bytes the pending copies have still to write. -/
def pendingAddrs (w : Nat) (l : List PendingCopy) : List Nat := writtenAddrs w (l.map PendingCopy.item)

theorem mem_pendingAddrs {w x : Nat} {l : List PendingCopy} :
    x ∈ pendingAddrs w l ↔ ∃ q ∈ l, x ∈ sampleAddrs q.item.dst w := by
  simp [pendingAddrs, writtenAddrs]

theorem mem_pendingAddrs_middle {w x : Nat} {a b : List PendingCopy} {q : PendingCopy} :
    x ∈ pendingAddrs w (a ++ q :: b) ↔ x ∈ sampleAddrs q.item.dst w ∨ x ∈ pendingAddrs w (a ++ b) := by
  simp only [mem_pendingAddrs, List.perm_middle.mem_iff, List.exists_mem_cons_iff]

/-- The copies of `c`, begun on the memory `m₀`, are under way: every copy pending is one of them and holds
nothing or its source's sample, and outside the bytes still to be written `m` is what the row order
leaves. -/
structure CopiesUnderWay (w : Nat) (c : List CopyItem) (m₀ : Memory) (l : List PendingCopy) (m : Memory) :
    Prop where
  wf : Memory.wf m = true
  pending : ∀ q ∈ l, q.item ∈ c ∧ ∀ bs, q.data = some bs → bs = memRead m₀ q.item.src w
  settled : ∀ x, x ∉ pendingAddrs w l → readByte m x = readByte (copyAll w c m₀) x

theorem CopiesUnderWay.start {w : Nat} {c : List CopyItem} {m₀ : Memory} (hm : Memory.wf m₀ = true) :
    CopiesUnderWay w c m₀ (c.map fun i => { item := i, data := none }) m₀ where
  wf := hm
  pending := by simp
  settled x hx := (readByte_copyAll_other (by simpa [pendingAddrs, Function.comp_def] using hx)).symm

section

variable {w : Nat} {c : List CopyItem} {m₀ m : Memory}

/-- With no copy pending the memory is the one the row order leaves. -/
theorem CopiesUnderWay.eq_copyAll (hm : Memory.wf m₀ = true) (h : CopiesUnderWay w c m₀ [] m) :
    m = copyAll w c m₀ :=
  Memory.ext h.wf (copyAll_wf hm) fun x => h.settled x (by simp [mem_pendingAddrs])

/-- No write meets the source of a pending copy, so it still holds its sample. -/
theorem CopiesUnderWay.memRead_src (hno : noOverlap w c = true) {l : List PendingCopy}
    (h : CopiesUnderWay w c m₀ l m) {q : PendingCopy} (hq : q ∈ l) :
    memRead m q.item.src w = memRead m₀ q.item.src w := by
  refine List.map_congr_left fun x hx => ?_
  have hx' : x ∉ writtenAddrs w c :=
    (noOverlap_iff.mp hno).2 x (List.mem_flatMap.mpr ⟨q.item, (h.pending q hq).1, hx⟩)
  rw [h.settled x, readByte_copyAll_other hx']
  intro hp
  obtain ⟨p, hp, hxp⟩ := mem_pendingAddrs.mp hp
  exact hx' (List.mem_flatMap.mpr ⟨p.item, (h.pending p hp).1, hxp⟩)

/-- A read takes its source's sample, as `memRead_src` says. -/
theorem CopiesUnderWay.read (hno : noOverlap w c = true) {a b : List PendingCopy} {q : PendingCopy}
    (h : CopiesUnderWay w c m₀ (a ++ q :: b) m) :
    CopiesUnderWay w c m₀ (a ++ { q with data := some (memRead m q.item.src w) } :: b) m where
  wf := h.wf
  pending := by
    have hread := h.memRead_src hno (q := q) (by simp)
    have hp := h.pending
    simp only [List.forall_mem_append, List.forall_mem_cons] at hp ⊢
    obtain ⟨ha, ⟨hq, -⟩, hb⟩ := hp
    exact ⟨ha, ⟨hq, fun bs hbs => (Option.some.inj hbs).symm.trans hread⟩, hb⟩
  settled x hx := h.settled x (by rwa [mem_pendingAddrs_middle] at hx ⊢)

/-- A write puts in its destination what the row order leaves there, and settles those bytes. -/
theorem CopiesUnderWay.write (hm : Memory.wf m₀ = true) (hw : w ≤ addrSpace) (hno : noOverlap w c = true)
    {a b : List PendingCopy} {q : PendingCopy} {bs : List Byte} (h : CopiesUnderWay w c m₀ (a ++ q :: b) m)
    (hd : q.data = some bs) : CopiesUnderWay w c m₀ (a ++ b) (memWrite m q.item.dst bs) where
  wf := memWrite_wf h.wf _ _
  pending p hp := h.pending p (List.perm_middle.mem_iff.mpr (List.mem_cons_of_mem q hp))
  settled x hx := by
    obtain ⟨hq, hbs⟩ := h.pending q (by simp)
    obtain rfl := hbs bs hd
    by_cases hxq : x ∈ sampleAddrs q.item.dst w
    · obtain ⟨j, hj, rfl⟩ := mem_sampleAddrs.mp hxq
      rw [readByte_memWrite_same h.wf (by simpa using hw) (by simpa using hj), memRead_getElem,
        readByte_copyAll_same hm hw hno hq hj]
    · rw [readByte_memWrite_other (by rwa [memRead_length])]
      exact h.settled x (by rw [mem_pendingAddrs_middle]; exact not_or.mpr ⟨hxq, hx⟩)

/-- Every access keeps the copies under way (R71). -/
theorem CopiesUnderWay.access (hm : Memory.wf m₀ = true) (hw : w ≤ addrSpace)
    (hno : noOverlap w c = true) {l : List PendingCopy} (h : CopiesUnderWay w c m₀ l m) (pick : Nat) :
    CopiesUnderWay w c m₀ (accessPicked w pick l m).1 (accessPicked w pick l m).2 := by
  rcases accessPicked_cases w pick l m with ⟨rfl, hr⟩ | ⟨a, q, b, rfl, ⟨-, hr⟩ | ⟨bs, hd, hr⟩⟩
  · rw [hr]; exact h
  · rw [hr]; exact h.read hno
  · rw [hr]; exact h.write hm hw hno hd

/-- Enough accesses finish the copies, with the memory of the row order whatever the picks. -/
theorem CopiesUnderWay.finish (hm : Memory.wf m₀ = true) (hw : w ≤ addrSpace)
    (hno : noOverlap w c = true) (picks : Nat → Nat) {n : Nat} {l : List PendingCopy}
    (h : CopiesUnderWay w c m₀ l m) (hn : accessesLeft l = n) :
    copyInOrder w picks n l m = copyAll w c m₀ := by
  induction n generalizing l m with
  | zero =>
    obtain rfl := eq_nil_of_accessesLeft hn
    exact h.eq_copyAll hm
  | succ n ih =>
    exact ih (h.access hm hw hno _) (by rw [accessesLeft_accessPicked, hn, Nat.add_sub_cancel])

end

/-- Settles O26: every access of any order keeps the copies under way, and the last one finishes them. -/
theorem copyOrderDoesNotMatter : Obligations.CopyOrderDoesNotMatter := by
  intro w picks l m hw hm hno
  have hws : w ≤ addrSpace := by rcases hw with rfl | rfl <;> decide
  exact (CopiesUnderWay.start hm).finish hm hws hno picks (accessesLeft_start l)

/-! ### Copies that overlap -/

/-- Bytes stored one by one, each a function of its address, are read back so. -/
theorem readByte_foldl_writeByte (as : List Nat) (f : Nat → Byte) {m : Memory} (hm : Memory.wf m = true)
    (has : ∀ a ∈ as, a < addrSpace) (x : Nat) :
    readByte (as.foldl (fun m' a => writeByte m' a (f a)) m) x = if x ∈ as then f x else readByte m x := by
  induction as generalizing m with
  | nil => simp
  | cons a r ih =>
    obtain ⟨ha, hr⟩ := List.forall_mem_cons.mp has
    rw [List.foldl_cons, ih (writeByte_wf hm ha _) hr, readByte_writeByte hm]
    by_cases hxr : x ∈ r
    · simp [hxr]
    · by_cases hxa : x = a
      · subst hxa; simp [hxr]
      · simp [hxr, hxa]

theorem writtenAddrs_lt {w a : Nat} {l : List CopyItem} (h : a ∈ writtenAddrs w l) : a < addrSpace := by
  obtain ⟨i, -, ha⟩ := List.mem_flatMap.mp h
  exact sampleAddrs_lt ha

/-- A byte overlapping copies write holds what the order drawn for it leaves there (U6). -/
theorem readByte_copyFree_written {w draw a : Nat} {l : List CopyItem} {m : Memory} (hm : Memory.wf m = true)
    (h : a ∈ writtenAddrs w l) :
    readByte (copyFree w draw l m) a = readByte (copyOrdered w (Config.freePick draw a) l m) a := by
  rw [copyFree, readByte_foldl_writeByte _ (fun a => readByte (copyOrdered w (Config.freePick draw a) l m) a)
    hm (fun _ => writtenAddrs_lt), if_pos h]

/-- Settles O27: the order is the one drawn for the byte. -/
theorem overlappingBytesComeFromSomeOrder : Obligations.OverlappingBytesComeFromSomeOrder :=
  fun _ draw _ _ a hm =>
    ⟨fun h => ⟨Config.freePick draw a, readByte_copyFree_written hm h⟩, readByte_copyFree_other⟩

end Sys2Proof.Machine
end

