-- ==== Sys2Proof/Proofs/Encoding.lean ====
section
/-! The messages: what encodes decodes to itself and what decodes encodes to itself; the six commands by mask,
match and DEPTH; the mode decode; and an illegal CMD word. Spec: 30_encoding.md R90 to R108;
42_host_and_lock_transactions.md R181; 60_exceptions.md R203. -/

namespace Sys2Proof.Machine

open Sys2Proof
open Sys2Proof.Laws

/-! ### From an instruction to its message and back -/

/-- Settles O6: each row loses no operand between its encoding and its decoding. -/
theorem decodeEncodeRoundTrip : Obligations.DecodeEncodeRoundTrip := by
  intro i
  cases i with
  | uplDual8 pl pc d => exact RoundTrip.uplDual8 pl pc d
  | uplDual16 pl pc d => exact RoundTrip.uplDual16 pl pc d
  | uplYuv8 pl pc pr d => exact RoundTrip.uplYuv8 pl pc pr d
  | uplYuv16 pl pc pr d => exact RoundTrip.uplYuv16 pl pc pr d
  | uplRgb8 pl pc d => exact RoundTrip.uplRgb8 pl pc d
  | uplRgb16 pl pc d => exact RoundTrip.uplRgb16 pl pc d
  | engSplit1 => exact RoundTrip.engSplit1
  | engSplit2 => exact RoundTrip.engSplit2
  | engPacked1 => exact RoundTrip.engPacked1
  | engPacked2 => exact RoundTrip.engPacked2
  | lock u => exact RoundTrip.lock u
  | unlock u => exact RoundTrip.unlock u
  | rd x => exact RoundTrip.rd x
  | wrCmd v => exact RoundTrip.wrCmd v
  | wr x v => exact RoundTrip.wr x v
  | wrIgnored x v => exact RoundTrip.wrIgnored x v

/-! ### From a message to its instruction and back -/

/-- A CMD word is its fields in order: reserved, DEPTH, reserved, PRESENT (R91). -/
theorem cmdFields_append (v : BitVec 32) :
    v.extractLsb' 16 16 ++ cmdDepth v ++ v.extractLsb' 4 4 ++ BitVec.ofBool (v.getLsbD 3) ++
      BitVec.ofBool (v.getLsbD 2) ++ BitVec.ofBool (v.getLsbD 1) ++ BitVec.ofBool (v.getLsbD 0) = v := by
  apply BitVec.eq_of_getLsbD_eq
  intro j hj
  simp only [cmdDepth, BitVec.getLsbD_append, BitVec.getLsbD_extractLsb', BitVec.getLsbD_ofBool]
  interval_cases j <;> simp

theorem cmdLegal_iff {v : BitVec 32} :
    cmdLegal v = true ↔ v.extractLsb' 4 4 = 0#4 ∧ v.extractLsb' 16 16 = 0#16 := by
  simp only [cmdLegal, Bool.and_eq_true, beq_iff_eq]

/-- A CMD word whose reserved bits are 0 is the word of its fields (R91). -/
theorem exists_cmdWord {v : BitVec 32} (h : cmdLegal v = true) : ∃ pl pc py pr d, v = cmdWord pl pc py pr d := by
  obtain ⟨hlow, hhigh⟩ := cmdLegal_iff.mp h
  have hv := cmdFields_append v
  rw [hlow, hhigh] at hv
  exact ⟨_, _, _, _, _, hv.symm⟩

/-- A CMD word with a reserved bit set is no instruction (R100). -/
theorem decodeCmd_illegal {v : BitVec 32} (h : cmdLegal v = false) : decodeCmd v = .error .reservedBits := by
  simp [decodeCmd, h]

/-- A CMD word that decodes is the word of the command it decodes to (R91, R101). -/
theorem decodeCmd_encodes {v : BitVec 32} {i : Instr} (h : decodeCmd v = .ok i) :
    i.wf = true ∧ encode i = .cmd v := by
  cases hv : cmdLegal v
  case false => rw [decodeCmd_illegal hv] at h; cases h
  case true =>
    obtain ⟨pl, pc, py, pr, d, rfl⟩ := exists_cmdWord hv
    rw [decodeCmd_cmdWord] at h
    cases hd : depthNarrow d <;> cases py <;> cases pr
    all_goals
      simp only [hd] at h
      cases h
      exact ⟨by simp [Instr.wf, hd], rfl⟩

theorem decodeEngsel_encodes (e : BitVec 2) :
    (decodeEngsel e).wf = true ∧ encode (decodeEngsel e) = .engsel e := by
  revert e; decide

/-- A lock request is its op bit and its handle (R105). -/
theorem lockWord_of_fields (w : BitVec 33) : lockWord (w.getLsbD 32) (w.extractLsb' 0 32) = w := by
  apply BitVec.eq_of_getLsbD_eq
  intro j hj
  simp only [lockWord, BitVec.getLsbD_append, BitVec.getLsbD_extractLsb']
  by_cases h32 : j < 32
  · simp [h32]
  · obtain rfl : j = 32 := by omega
    simp

theorem decodeLockmsg_encodes (w : BitVec 33) :
    (decodeLockmsg w).wf = true ∧ encode (decodeLockmsg w) = .lockmsg w := by
  have hw := lockWord_of_fields w
  unfold decodeLockmsg
  split <;> rename_i hop
  · rw [hop] at hw
    exact ⟨rfl, congrArg PortWord.lockmsg hw⟩
  · rw [Bool.eq_false_of_not_eq_true hop] at hw
    exact ⟨rfl, congrArg PortWord.lockmsg hw⟩

/-- A 7-bit word whose rw bit says read is the read of its index (R108). -/
theorem readWord_of_fields {w : BitVec 7} (h : w.getLsbD 6 = false) : readWord (w.extractLsb' 0 6) = w := by
  apply BitVec.eq_of_getLsbD_eq
  intro j hj
  simp only [readWord, BitVec.getLsbD_append, BitVec.getLsbD_extractLsb']
  by_cases h6 : j < 6
  · simp [h6]
  · obtain rfl : j = 6 := by omega
    rw [h]
    simp

theorem decodeRegRead_encodes {w : BitVec 7} {i : Instr} (h : decodeRegRead w = .ok i) :
    i.wf = true ∧ encode i = .regRead w := by
  unfold decodeRegRead at h
  split at h <;> rename_i hrw
  · cases h
  · cases h
    exact ⟨rfl, congrArg PortWord.regRead (readWord_of_fields (Bool.eq_false_of_not_eq_true hrw))⟩

/-- A word index other than 0 that names no descriptor register is one whose writes are ignored (R183). -/
theorem widxIgnored_of_others {x : BitVec 6} (h0 : x ≠ 0#6) (hd : widxDescriptor x = false) :
    widxIgnored x = true := by
  revert x; decide

theorem decodeRegWrite_encodes {w : BitVec 39} {i : Instr} (h : decodeRegWrite w = .ok i) :
    i.wf = true ∧ encode i = .regWrite w := by
  simp only [decodeRegWrite] at h
  split at h
  · cases h
  · rename_i hrw
    have hw := writeWord_of_fields (w := w) (by simpa using hrw)
    split at h <;> rename_i h0
    · cases h
      rw [beq_iff_eq.mp h0] at hw
      exact ⟨rfl, congrArg PortWord.regWrite hw⟩
    · split at h <;> rename_i hd <;> cases h
      · exact ⟨hd, congrArg PortWord.regWrite hw⟩
      · exact ⟨widxIgnored_of_others (by simpa using h0) (by simpa using hd), congrArg PortWord.regWrite hw⟩

/-- Settles O7: in each format the message is the word of the fields its decoder reads. -/
theorem decodedMessageEncodesBack : Obligations.DecodedMessageEncodesBack := by
  intro p i h
  cases p with
  | cmd v => exact decodeCmd_encodes h
  | engsel e => cases h; exact decodeEngsel_encodes e
  | lockmsg w => cases h; exact decodeLockmsg_encodes w
  | regRead w => exact decodeRegRead_encodes h
  | regWrite w => exact decodeRegWrite_encodes h

/-- Settles O5: each word evaluates as the formats say. -/
theorem specWordsDecode : Obligations.SpecWordsDecode :=
  ⟨rfl, rfl, rfl, rfl, rfl, rfl, rfl, rfl, rfl, rfl, rfl, rfl, rfl, rfl, rfl⟩

/-! ### The mode decode -/

/-- ENGSEL by topology and DEPTH (R94, R99). -/
theorem engsel_eq (p : BitVec 4) (d : BitVec 8) :
    engsel p d = if single p = true then (if d.toNat ≤ 8 then 0b10#2 else 0b11#2)
      else (if d.toNat ≤ 8 then 0b00#2 else 0b01#2) := by
  unfold engsel sampleWidth
  cases single p <;> split <;> rfl

/-- Settles O9: each function is its rule, and ENGSEL pairs two of them. -/
theorem modeDecodeTable : Obligations.ModeDecodeTable :=
  ⟨fun _ => rfl, fun _ => rfl, fun _ => rfl, fun _ => rfl, engsel_eq, rfl, rfl, rfl, rfl, rfl, rfl⟩

/-! ### The six commands by mask, match and DEPTH -/

/-- The mask of a row of R101: every reserved bit, and p_yuv444 and p_rgb where the row compares them. -/
def rowMask (yuv rgb : Bool) : BitVec 32 :=
  BitVec.allOnes 16 ++ 0#8 ++ BitVec.allOnes 4 ++ BitVec.ofBool rgb ++ BitVec.ofBool yuv ++ 0#1 ++ 0#1

theorem rowMask_yuvRgb : 0xFFFF00FC#32 = rowMask true true := rfl

theorem rowMask_yuv : 0xFFFF00F4#32 = rowMask true false := rfl

theorem rowMask_reserved : 0xFFFF00F0#32 = rowMask false false := rfl

/-- On a legal word the mask of a row leaves the present bits the row compares (R101). -/
theorem cmdWord_and_rowMask (pl pc py pr : Bool) (d : BitVec 8) (yuv rgb : Bool) :
    cmdWord pl pc py pr d &&& rowMask yuv rgb = cmdWord false false (py && yuv) (pr && rgb) 0 := by
  unfold cmdWord rowMask
  iterate 6 rw [BitVec.and_append]
  simp only [BitVec.and_allOnes, BitVec.ofBool_and_ofBool, BitVec.and_zero]
  rfl

/-- The mask of a row keeps every reserved bit (R100). -/
theorem cmdLegal_and_rowMask (v : BitVec 32) (yuv rgb : Bool) : cmdLegal (v &&& rowMask yuv rgb) = cmdLegal v := by
  have hlow : (rowMask yuv rgb).extractLsb' 4 4 = BitVec.allOnes 4 := by cases yuv <;> cases rgb <;> decide
  have hhigh : (rowMask yuv rgb).extractLsb' 16 16 = BitVec.allOnes 16 := by cases yuv <;> cases rgb <;> decide
  rw [cmdLegal, BitVec.extractLsb'_and, BitVec.extractLsb'_and, hlow, hhigh, BitVec.and_allOnes,
    BitVec.and_allOnes, ← cmdLegal]

/-- An illegal word meets no match whose reserved bits are 0 (R100, R101). -/
theorem and_rowMask_ne {v k : BitVec 32} (hv : cmdLegal v = false) (hk : cmdLegal k = true) (yuv rgb : Bool) :
    v &&& rowMask yuv rgb ≠ k := by
  rintro rfl
  rw [cmdLegal_and_rowMask, hv] at hk
  cases hk

theorem cmdPresent_getLsbD {v : BitVec 32} {j : Nat} (hj : j < 4) : (cmdPresent v).getLsbD j = v.getLsbD j := by
  rw [cmdPresent, BitVec.getLsbD_extractLsb', decide_eq_true hj, Bool.true_and, Nat.zero_add]

/-- A command is single when it selects a packed surface (R93). -/
@[simp] theorem single_cmdWord (pl pc py pr : Bool) (d : BitVec 8) :
    single (cmdPresent (cmdWord pl pc py pr d)) = (py || pr) := by
  rw [single, presentBit, presentBit, cmdPresent_getLsbD (by decide), cmdPresent_getLsbD (by decide),
    cmdWord_pYuv, cmdWord_pRgb]

/-- The main surface a command selects (R95). -/
@[simp] theorem mainSel_cmdWord (pl pc py pr : Bool) (d : BitVec 8) :
    mainSel (cmdPresent (cmdWord pl pc py pr d)) = if py then .yuv444 else if pr then .rgb else .luma := by
  rw [mainSel, presentBit, presentBit, cmdPresent_getLsbD (by decide), cmdPresent_getLsbD (by decide),
    cmdWord_pYuv, cmdWord_pRgb]

theorem depthNarrow_iff (d : BitVec 8) : depthNarrow d = true ↔ d.toNat ≤ 8 := by
  simp [depthNarrow]

/-- Settles O8: an illegal word meets no row and decodes to nothing; a legal one is the word of its fields, and
DEPTH, p_yuv444 and p_rgb select its row. -/
theorem sixCommandsPartitionLegalWords : Obligations.SixCommandsPartitionLegalWords := by
  intro v
  rw [rowMask_yuvRgb, rowMask_yuv, rowMask_reserved, show v.extractLsb' 0 4 = cmdPresent v from rfl,
    show v.extractLsb' 8 8 = cmdDepth v from rfl]
  cases hv : cmdLegal v
  case false =>
    simp [decode, decodeCmd_illegal hv, and_rowMask_ne hv (k := 0#32) rfl, and_rowMask_ne hv (k := 4#32) rfl,
      and_rowMask_ne hv (k := 8#32) rfl]
  case true =>
    obtain ⟨pl, pc, py, pr, d, rfl⟩ := exists_cmdWord hv
    simp only [decode, decodeCmd_cmdWord, cmdDepth_cmdWord, cmdWord_and_rowMask, mainSel_cmdWord, engsel_eq,
      single_cmdWord, ← not_le, ← depthNarrow_iff]
    cases depthNarrow d <;> cases py <;> cases pr <;> simp [cmdWord]

/-! ### Illegal words -/

/-- The state an illegal CMD word taken in IDLE leaves (R100, R181 (b)). -/
theorem writeCommand_illegal {v : Word} {s : State} (hp : s.phase = .idle) (hv : cmdLegal v = false) :
    writeCommand v s = rejectCommand v s := by
  simp [writeCommand, hp, hv]

/-- The doorbell by the register port: a step on it is the CMD write (R181). -/
theorem step_doorbell {v : Word} {s : State} {r : List Turn} (ht : s.turns = .write (writeWord 0#6 v) :: r) :
    step s = .next (writeCommand v { s with turns := r }) :=
  step_of_fetch (fetch_write ht) (RoundTrip.wrCmd v rfl)

/-- A step on an illegal CMD word is the CMD write (R100). -/
theorem step_illegal_command {v : Word} {s : State} {r : List Turn} (ht : s.turns = .command v :: r)
    (hv : cmdLegal v = false) : step s = .next (writeCommand v { s with turns := r }) := by
  simp only [step, fetch_command ht, decode, decodeCmd_illegal hv, undecoded]

/-- Settles O14: by either route the step is the CMD write, which `rejectCommand` answers. -/
theorem illegalCommandFinishesAtOnce : Obligations.IllegalCommandFinishesAtOnce := by
  intro v s r hp hbits hturn
  have hv : cmdLegal v = false := by
    rw [Bool.eq_false_iff, Ne, cmdLegal_iff, not_and_or]
    exact hbits
  have hstep : step s = .next (writeCommand v { s with turns := r }) := by
    rcases hturn with ht | ht
    · exact step_doorbell ht
    · exact step_illegal_command ht hv
  rw [writeCommand_illegal (s := { s with turns := r }) hp hv] at hstep
  have hread : statusWord (statusFinished false .illegalCmd) = 0x32 := by decide
  exact ⟨_, hstep, hread, rfl, rfl, by rw [rejectCommand, finish, hp]⟩

end Sys2Proof.Machine
end

