-- ==== Sys2Proof/Proofs/ContractCopies.lean ====
section
/-! The contract of the host and the lock agent keeps the copies of COPY in the windows held and their accesses
apart. Spec: 20_memory.md R66, R71; 42_host_and_lock_transactions.md R186; 70_reset_and_hazards.md R245, R249. -/

namespace Sys2Proof.Machine

open Sys2Proof

/-! ### Slots of a window -/

/-- The address of slot `s` of row `y` in a window: what MainAddr and ChromaAddr share (R123). -/
def slotAddr (w base ep s y : Nat) : Nat := (base + (y * ep + s) * w) % addrSpace

theorem mainAddr_eq_slotAddr (o : EngOperands) (s y : Nat) :
    mainAddr o s y = slotAddr o.w o.dMain o.epMain s y := rfl

theorem chromaAddr_eq_slotAddr (o : EngOperands) (s y : Nat) :
    chromaAddr o s y = slotAddr o.w o.dChroma o.epChroma s y := rfl

/-- A quotient and a remainder are read off their number. -/
theorem digits_inj {b q r q' r' : Nat} (hr : r < b) (hr' : r' < b) (h : q * b + r = q' * b + r') :
    q = q' ∧ r = r' := by
  have hb : 0 < b := Nat.zero_lt_of_lt hr
  have hq : (q * b + r) / b = (q' * b + r') / b := by rw [h]
  rw [Nat.mul_comm q, Nat.mul_comm q', Nat.mul_add_div hb, Nat.mul_add_div hb, Nat.div_eq_of_lt hr,
    Nat.div_eq_of_lt hr'] at hq
  obtain rfl : q = q' := hq
  exact ⟨rfl, Nat.add_left_cancel h⟩

/-- What the rows of R186 share: slots `lo` to `hi - 1` of the first `rows` rows fit in the window, and no two
rows of them meet. -/
structure SlotsFit (w lo hi rows : Nat) (base : Addr) (pitch : Word) (extent : Nat) : Prop where
  whole : pitch.toNat % w = 0
  rowFits : hi * w ≤ pitch.toNat + lo * w
  lastRowFits : lo < hi → 0 < rows → (rows - 1) * pitch.toNat + hi * w ≤ extent
  below : base.toNat + extent ≤ addrSpace

theorem SlotsFit.of_luma {w lw lh : Nat} {base : Addr} {pitch : Word} {extent : Nat}
    (h : lumaGrantOk w lw lh base pitch extent) : SlotsFit w 0 lw lh base pitch extent := by
  obtain ⟨hwhole, hrow, hlast, hbelow⟩ := h
  exact ⟨hwhole, by omega, hlast, hbelow⟩

theorem SlotsFit.of_packed {w lw lh : Nat} {base : Addr} {pitch : Word} {extent : Nat}
    (h : packedGrantOk w lw lh base pitch extent) : SlotsFit w 0 (4 * lw - 1) lh base pitch extent := by
  obtain ⟨hwhole, hrow, hlast, hbelow⟩ := h
  have hslots : (4 * lw - 1) * w ≤ 4 * lw * w := Nat.mul_le_mul_right w (Nat.sub_le _ _)
  exact ⟨hwhole, by omega, fun hlw => hlast (by omega), hbelow⟩

theorem SlotsFit.of_chroma {w off m n : Nat} {base : Addr} {pitch : Word} {extent : Nat}
    (h : chromaGrantOk w off m n base pitch extent) : SlotsFit w off (2 * m + off) n base pitch extent := by
  obtain ⟨hwhole, hrow, hlast, hbelow⟩ := h
  exact ⟨hwhole, by rw [Nat.add_mul]; omega, fun hm => hlast (by omega), hbelow⟩

section

variable {w lo hi rows : Nat} {base : Addr} {pitch : Word} {extent : Nat}

/-- Byte `j` of a slot that fits: no address wraps, and it lies within the extent. -/
theorem SlotsFit.byte (h : SlotsFit w lo hi rows base pitch extent) {s y j : Nat} (hlo : lo ≤ s) (hs : s < hi)
    (hy : y < rows) (hj : j < w) :
    (slotAddr w base.toNat (elementStride pitch w) s y + j) % addrSpace =
        base.toNat + (y * pitch.toNat + (s * w + j)) ∧
      y * pitch.toNat + (s * w + j) < extent := by
  have hpitch : elementStride pitch w * w = pitch.toNat :=
    Nat.div_mul_cancel (Nat.dvd_of_mod_eq_zero h.whole)
  have hrow : y * pitch.toNat ≤ (rows - 1) * pitch.toNat := Nat.mul_le_mul_right _ (by omega)
  have hslot : (s + 1) * w ≤ hi * w := Nat.mul_le_mul_right w hs
  have hlast := h.lastRowFits (by omega) (by omega)
  have hbelow := h.below
  have hin : y * pitch.toNat + (s * w + j) < extent := by rw [Nat.succ_mul] at hslot; omega
  refine ⟨?_, hin⟩
  rw [slotAddr, Nat.mod_add_mod, Nat.add_mul, Nat.mul_assoc, hpitch, Nat.add_assoc, Nat.add_assoc,
    Nat.mod_eq_of_lt (by omega)]

/-- A slot that fits lies in the window (R249). -/
theorem SlotsFit.windowHas_of_mem (h : SlotsFit w lo hi rows base pitch extent) {s y a : Nat} (hlo : lo ≤ s)
    (hs : s < hi) (hy : y < rows)
    (ha : a ∈ sampleAddrs (slotAddr w base.toNat (elementStride pitch w) s y) w) :
    windowHas base extent a := by
  obtain ⟨j, hj, rfl⟩ := mem_sampleAddrs.mp ha
  obtain ⟨heq, hin⟩ := h.byte hlo hs hy hj
  rw [heq]
  exact ⟨Nat.le_add_right _ _, Nat.add_lt_add_left hin _⟩

/-- Two slots that fit share no byte (R66). -/
theorem SlotsFit.disjoint (h : SlotsFit w lo hi rows base pitch extent) {s y s' y' : Nat} (hlo : lo ≤ s)
    (hs : s < hi) (hy : y < rows) (hlo' : lo ≤ s') (hs' : s' < hi) (hy' : y' < rows)
    (hne : ¬ (s = s' ∧ y = y')) :
    (sampleAddrs (slotAddr w base.toNat (elementStride pitch w) s y) w).Disjoint
      (sampleAddrs (slotAddr w base.toNat (elementStride pitch w) s' y') w) := by
  intro a ha ha'
  obtain ⟨j, hj, rfl⟩ := mem_sampleAddrs.mp ha
  obtain ⟨j', hj', heq⟩ := mem_sampleAddrs.mp ha'
  rw [(h.byte hlo hs hy hj).1, (h.byte hlo' hs' hy' hj').1] at heq
  obtain ⟨k, rfl⟩ := Nat.exists_eq_add_of_le hlo
  obtain ⟨k', rfl⟩ := Nat.exists_eq_add_of_le hlo'
  have hin : ∀ {k j : Nat}, lo + k < hi → j < w → k * w + j < pitch.toNat := by
    intro k j hk hj
    have hslot : (lo + k + 1) * w ≤ hi * w := Nat.mul_le_mul_right w hk
    have hrow := h.rowFits
    rw [Nat.add_mul, Nat.add_mul] at hslot
    omega
  rw [Nat.add_mul, Nat.add_mul] at heq
  obtain ⟨hyy, hkj⟩ := digits_inj (hin hs hj) (hin hs' hj') (q := y) (q' := y') (by omega)
  obtain ⟨hkk, -⟩ := digits_inj hj hj' hkj
  exact hne ⟨by rw [hkk], hyy⟩

end

/-! ### Lists of copies -/

/-- The bytes of a sample are distinct. -/
theorem nodup_sampleAddrs {w : Nat} (hw : w ≤ addrSpace) (a : Nat) : (sampleAddrs a w).Nodup := by
  refine List.Nodup.map_on (fun i hi j hj h => ?_) List.nodup_range
  rw [List.mem_range] at hi hj
  exact Nat.ModEq.eq_of_lt_of_lt (Nat.ModEq.add_left_cancel' a h) (by omega) (by omega)

/-- Copies whose destinations share no byte write none twice. -/
theorem nodup_writtenAddrs {w : Nat} (hw : w ≤ addrSpace) {l : List CopyItem}
    (h : l.Pairwise fun i i' => (sampleAddrs i.dst w).Disjoint (sampleAddrs i'.dst w)) :
    (writtenAddrs w l).Nodup :=
  List.nodup_flatMap.mpr ⟨fun _ _ => nodup_sampleAddrs hw _, h⟩

/-- What holds between the copies of one position and between those of two holds between all. -/
theorem pairwise_positions {R : CopyItem → CopyItem → Prop} {o : EngOperands} {f : Nat → Nat → List CopyItem}
    (hone : ∀ x y, x < o.lw → y < o.lh → (f x y).Pairwise R)
    (htwo : ∀ x y x' y', x < o.lw → y < o.lh → x' < o.lw → y' < o.lh → ¬ (x = x' ∧ y = y') →
      ∀ i ∈ f x y, ∀ i' ∈ f x' y', R i i') : (positions o f).Pairwise R := by
  simp only [positions, List.pairwise_flatMap, List.mem_range, List.mem_flatMap]
  refine ⟨fun y hy => ⟨fun x hx => hone x y hx hy, ?columns⟩, ?rows⟩
  case columns =>
    refine List.pairwise_lt_range.imp_of_mem fun {x x'} hx hx' hlt => ?_
    exact htwo x y x' y (List.mem_range.mp hx) hy (List.mem_range.mp hx') hy (by omega)
  case rows =>
    refine List.pairwise_lt_range.imp_of_mem fun {y y'} hy hy' hlt => ?_
    rintro i ⟨x, hx, hi⟩ i' ⟨x', hx', hi'⟩
    exact htwo x y x' y' hx (List.mem_range.mp hy) hx' (List.mem_range.mp hy') (by omega) i hi i' hi'

/-! ### PACKED -/

section

variable {w : Nat} {c : Ctx} {x y k x' y' k' : Nat}
  (h : SlotsFit w 0 (4 * c.lw.toNat - 1) c.lh.toNat c.mainBase c.mainPitch c.mainExtent)

include h

theorem packedItem_windowHas (hx : x < c.lw.toNat) (hy : y < c.lh.toNat) (hk : k < 3) :
    ∀ a ∈ sampleAddrs (packedItem (engOperands .packed w c) x y k).dst w,
      windowHas c.mainBase c.mainExtent a :=
  fun _ => h.windowHas_of_mem (s := 4 * x + k) (Nat.zero_le _) (by omega) hy

/-- Lanes of PACKED texels share no byte (R66). -/
theorem packedItem_disjoint (hx : x < c.lw.toNat) (hy : y < c.lh.toNat) (hk : k < 3) (hx' : x' < c.lw.toNat)
    (hy' : y' < c.lh.toNat) (hk' : k' < 3) (hne : ¬ (x = x' ∧ y = y' ∧ k = k')) :
    (sampleAddrs (packedItem (engOperands .packed w c) x y k).dst w).Disjoint
      (sampleAddrs (packedItem (engOperands .packed w c) x' y' k').dst w) :=
  h.disjoint (s := 4 * x + k) (s' := 4 * x' + k') (Nat.zero_le _) (by omega) hy (Nat.zero_le _) (by omega) hy'
    (by omega)

end

/-- The contract of PACKED keeps its copies in the window and apart (R245, R249). -/
theorem copiesApart_of_packedContract {w : Nat} {c : Ctx} (hw : w ≤ addrSpace) (h : packedContract w c) :
    copiesApart .packed w c := by
  obtain ⟨hheld, hgrant, hsrc⟩ := h
  have hfit := SlotsFit.of_packed hgrant
  have hmain : ∀ i ∈ copyItems .packed (engOperands .packed w c), ∀ a ∈ sampleAddrs i.dst w,
      i.win = .main ∧ windowHas c.mainBase c.mainExtent a := by
    intro i hi a ha
    obtain ⟨y, hy, x, hx, k, hk, rfl⟩ := mem_packedItems.mp hi
    exact ⟨rfl, packedItem_windowHas hfit hx hy hk a ha⟩
  refine ⟨allInWindow_iff.mpr fun i hi a ha => ?window,
    noOverlap_iff.mpr ⟨nodup_writtenAddrs hw (pairwise_positions ?one ?two), fun a ha ha' => ?read⟩⟩
  case window =>
    obtain ⟨hwin, hin⟩ := hmain i hi a ha
    simp [inWindow, hwin, hheld, hin]
  case one =>
    refine fun x y hx hy => List.pairwise_map.mpr (List.pairwise_lt_range.imp_of_mem fun hk hk' hlt => ?_)
    rw [List.mem_range] at hk hk'
    exact packedItem_disjoint hfit hx hy hk hx hy hk' (by omega)
  case two =>
    intro x y x' y' hx hy hx' hy' hne i hi i' hi'
    obtain ⟨k, hk, rfl⟩ := List.mem_map.mp hi
    obtain ⟨k', hk', rfl⟩ := List.mem_map.mp hi'
    rw [List.mem_range] at hk hk'
    exact packedItem_disjoint hfit hx hy hk hx' hy' hk' (by omega)
  case read =>
    obtain ⟨i, hi, hin⟩ := List.mem_flatMap.mp ha'
    exact hsrc a ha (hmain i hi a hin).2

/-! ### SPLIT -/

/-- The copies of one position of SPLIT (R125, R126). -/
theorem mem_splitAt {o : EngOperands} {x y : Nat} {i : CopyItem} :
    i ∈ splitAt o x y ↔ i = lumaItem o x y ∨ x < o.cw ∧ y < o.ch ∧ ∃ j, j < 2 ∧ i = chromaItem o x y j := by
  by_cases hc : x < o.cw ∧ y < o.ch
  · simp [splitAt, hc, eq_comm]
  · simp [splitAt, hc, ← and_assoc]

/-- Samples that lie in windows apart share no byte (R245). -/
theorem windowsApart.disjoint {b b' : Addr} {e e' : Nat} {l l' : List Nat} (h : windowsApart b e b' e')
    (hl : ∀ a ∈ l, windowHas b e a) (hl' : ∀ a ∈ l', windowHas b' e' a) : l.Disjoint l' := by
  intro a ha ha'
  have hin := hl a ha
  have hin' := hl' a ha'
  unfold windowsApart at h
  omega

theorem lumaItem_windowHas {w x y : Nat} {c : Ctx}
    (h : SlotsFit w 0 c.lw.toNat c.lh.toNat c.mainBase c.mainPitch c.mainExtent) (hx : x < c.lw.toNat)
    (hy : y < c.lh.toNat) :
    ∀ a ∈ sampleAddrs (lumaItem (engOperands .split w c) x y).dst w, windowHas c.mainBase c.mainExtent a :=
  fun _ => h.windowHas_of_mem (Nat.zero_le _) hx hy

section

variable {w m n : Nat} {c : Ctx} {x y j x' y' j' : Nat}
  (h : SlotsFit w (chromaOffset w) (2 * m + chromaOffset w) n c.chromaBase c.chromaPitch c.chromaExtent)

include h

theorem chromaItem_windowHas (hx : x < m) (hy : y < n) (hj : j < 2) :
    ∀ a ∈ sampleAddrs (chromaItem (engOperands .split w c) x y j).dst w,
      windowHas c.chromaBase c.chromaExtent a :=
  fun _ => h.windowHas_of_mem (s := 2 * x + chromaOffset w + j) (by omega) (by omega) hy

/-- Chroma samples share no byte, also with the pairs displaced by one slot (R66, R127). -/
theorem chromaItem_disjoint (hx : x < m) (hy : y < n) (hj : j < 2) (hx' : x' < m) (hy' : y' < n) (hj' : j' < 2)
    (hne : ¬ (x = x' ∧ y = y' ∧ j = j')) :
    (sampleAddrs (chromaItem (engOperands .split w c) x y j).dst w).Disjoint
      (sampleAddrs (chromaItem (engOperands .split w c) x' y' j').dst w) :=
  h.disjoint (s := 2 * x + chromaOffset w + j) (s' := 2 * x' + chromaOffset w + j') (by omega) (by omega) hy
    (by omega) (by omega) hy' (by omega)

end

/-- The contract of SPLIT keeps its copies in the windows and apart (R245, R246, R249). -/
theorem copiesApart_of_splitContract {w : Nat} {c : Ctx} (hw : w ≤ addrSpace) (h : splitContract w c) :
    copiesApart .split w c := by
  obtain ⟨hmainHeld, hchromaHeld, hmainGrant, hchromaGrant, hwindows, hsrc⟩ := h
  have hmain := SlotsFit.of_luma hmainGrant
  have hchroma := SlotsFit.of_chroma hchromaGrant
  have hwin : allInWindow c w (copyItems .split (engOperands .split w c)) = true := by
    refine allInWindow_iff.mpr fun i hi a ha => ?_
    obtain ⟨y, hy, x, hx, rfl | ⟨hxc, hyc, j, hj, rfl⟩⟩ := mem_splitItems.mp hi
    · have hin := lumaItem_windowHas hmain hx hy a ha
      simp [inWindow, lumaItem, hmainHeld, hin]
    · have hin := chromaItem_windowHas hchroma (lt_min hxc hx) (lt_min hyc hy) hj a ha
      simp [inWindow, chromaItem, hchromaHeld, hin]
  refine ⟨hwin, noOverlap_iff.mpr ⟨nodup_writtenAddrs hw (pairwise_positions ?one ?two), fun a ha ha' => ?read⟩⟩
  case one =>
    intro x y hx hy
    rw [splitAt, List.pairwise_cons]
    split
    · rename_i hc
      obtain ⟨hxc, hyc⟩ := hc
      simp only [List.pairwise_map, List.forall_mem_map, List.mem_range]
      refine ⟨fun j hj => hwindows.disjoint (lumaItem_windowHas hmain hx hy)
        (chromaItem_windowHas hchroma (lt_min hxc hx) (lt_min hyc hy) hj), ?_⟩
      refine List.pairwise_lt_range.imp_of_mem fun hj hj' hlt => ?_
      rw [List.mem_range] at hj hj'
      exact chromaItem_disjoint hchroma (lt_min hxc hx) (lt_min hyc hy) hj (lt_min hxc hx) (lt_min hyc hy) hj'
        (by omega)
    · simp
  case two =>
    intro x y x' y' hx hy hx' hy' hne i hi i' hi'
    rcases mem_splitAt.mp hi with rfl | ⟨hxc, hyc, j, hj, rfl⟩ <;>
      rcases mem_splitAt.mp hi' with rfl | ⟨hxc', hyc', j', hj', rfl⟩
    · exact hmain.disjoint (Nat.zero_le _) hx hy (Nat.zero_le _) hx' hy' hne
    · exact hwindows.disjoint (lumaItem_windowHas hmain hx hy)
        (chromaItem_windowHas hchroma (lt_min hxc' hx') (lt_min hyc' hy') hj')
    · exact (hwindows.disjoint (lumaItem_windowHas hmain hx' hy')
        (chromaItem_windowHas hchroma (lt_min hxc hx) (lt_min hyc hy) hj)).symm
    · exact chromaItem_disjoint hchroma (lt_min hxc hx) (lt_min hyc hy) hj (lt_min hxc' hx') (lt_min hyc' hy') hj'
        (by omega)
  case read =>
    obtain ⟨win, hin⟩ := inWindow_of_written hwin ha'
    obtain ⟨hnotMain, hnotChroma⟩ := hsrc a ha
    rcases held_of_inWindow hin with ⟨-, hin⟩ | ⟨-, hin⟩
    · exact hnotMain hin
    · exact hnotChroma hin

end Sys2Proof.Machine
end

