-- ==== Sys2Proof/Proofs/EngineCopies.lean ====
section
/-! What each specialization of the engine leaves when its copies stay in the windows and apart: every byte it
writes, every other byte, and its frame; and the element-strides it copies with. Spec: 20_memory.md R60;
40_plane_upload_engine.md R121 to R126, R130 to R133; 41_frame_upload_coordinator.md R155. -/

namespace Sys2Proof.Machine

open Sys2Proof

/-! ### Element-strides -/

/-- At W = 1 an element-stride is the byte stride (R121). -/
theorem elementStride_one (b : Word) : elementStride b 1 = b.toNat := Nat.div_one _

/-- Settles O29: for W = 2 the quotient is the word without bit 0. -/
theorem elementStrideDropsBitZero : Obligations.ElementStrideDropsBitZero := by
  refine ⟨fun _ _ _ => ⟨rfl, rfl, rfl, rfl⟩, fun b => ⟨elementStride_one b, ?bits, ?whole, ?odd⟩⟩
  case bits =>
    have hb := b.isLt
    rw [elementStride, BitVec.extractLsb'_toNat, Nat.shiftRight_eq_div_pow, pow_one, Nat.mod_eq_of_lt (by omega)]
  case whole => exact fun w _ hb => Nat.div_mul_cancel (Nat.dvd_of_mod_eq_zero hb)
  case odd =>
    intro hb
    unfold elementStride
    omega

/-! ### The bytes of a copy -/

/-- Without overlap, byte `i` of every copy's destination is byte `i` of its source, with the addresses of
source and destination written out. -/
theorem readByte_copyAll_item {w : Nat} {l : List CopyItem} {m : Memory} (hm : Memory.wf m = true)
    (hw : w ≤ addrSpace) (hno : noOverlap w l = true) {src dst i : Nat} {win : Window}
    (hi : i < w) (hmem : ⟨src % addrSpace, dst % addrSpace, win⟩ ∈ l) :
    readByte (copyAll w l m) ((dst + i) % addrSpace) = readByte m ((src + i) % addrSpace) := by
  have h := readByte_copyAll_same hm hw hno hmem hi
  simpa only [Nat.mod_add_mod] using h

/-- The copies of PACKED leave the texels of R124 and every other byte. -/
theorem packedCopied_copyAll {o : EngOperands} {m : Memory} (hm : Memory.wf m = true) (hw : o.w ≤ addrSpace)
    (hno : noOverlap o.w (copyItems .packed o) = true) :
    packedCopied o.w o.lw o.lh o.c0 o.c1 o.c2 o.es0 o.es1 o.dMain o.epMain m
      (copyAll o.w (copyItems .packed o) m) := by
  have hitem : ∀ {x y k}, x < o.lw → y < o.lh → k < 3 → packedItem o x y k ∈ copyItems .packed o :=
    fun hx hy hk => mem_packedItems.mpr ⟨_, hy, _, hx, _, hk, rfl⟩
  refine ⟨fun x y i hx hy hi => ⟨?_, ?_, ?_⟩, fun a ha => readByte_copyAll_other fun hwritten => ?_⟩
  · exact readByte_copyAll_item hm hw hno hi (hitem hx hy (k := 0) (by decide))
  · exact readByte_copyAll_item hm hw hno hi (hitem hx hy (k := 1) (by decide))
  · exact readByte_copyAll_item hm hw hno hi (hitem hx hy (k := 2) (by decide))
  · obtain ⟨_, hc, i, hi, rfl⟩ := mem_writtenAddrs.mp hwritten
    obtain ⟨y, hy, x, hx, k, hk, rfl⟩ := mem_packedItems.mp hc
    exact ha x y k i hx hy hk hi (Nat.mod_add_mod _ _ _)

/-- The copies of SPLIT leave the luma samples and the chroma pairs of R125 and R126 and every other byte. -/
theorem splitCopied_copyAll {o : EngOperands} {m : Memory} (hm : Memory.wf m = true) (hw : o.w ≤ addrSpace)
    (hno : noOverlap o.w (copyItems .split o) = true) :
    splitCopied o.w o.off o.lw o.lh o.cw o.ch o.c0 o.c1 o.c2 o.es0 o.es1 o.dMain o.epMain o.dChroma o.epChroma m
      (copyAll o.w (copyItems .split o) m) := by
  have hluma : ∀ {x y}, x < o.lw → y < o.lh → lumaItem o x y ∈ copyItems .split o :=
    fun hx hy => mem_splitItems.mpr ⟨_, hy, _, hx, .inl rfl⟩
  have hchroma : ∀ {x y j}, x < o.lw → y < o.lh → x < o.cw → y < o.ch → j < 2 →
      chromaItem o x y j ∈ copyItems .split o :=
    fun hx hy hxc hyc hj => mem_splitItems.mpr ⟨_, hy, _, hx, .inr ⟨hxc, hyc, _, hj, rfl⟩⟩
  refine ⟨fun x y i hx hy hi => ?_, fun x y i hx hy hxc hyc hi => ⟨?_, ?_⟩,
    fun a hnotLuma hnotChroma => readByte_copyAll_other fun hwritten => ?_⟩
  · exact readByte_copyAll_item hm hw hno hi (hluma hx hy)
  · exact readByte_copyAll_item hm hw hno hi (hchroma hx hy hxc hyc (j := 0) (by decide))
  · exact readByte_copyAll_item hm hw hno hi (hchroma hx hy hxc hyc (j := 1) (by decide))
  · obtain ⟨_, hc, i, hi, rfl⟩ := mem_writtenAddrs.mp hwritten
    obtain ⟨y, hy, x, hx, rfl | ⟨hxc, hyc, j, hj, rfl⟩⟩ := mem_splitItems.mp hc
    · exact hnotLuma x y i hx hy hi (Nat.mod_add_mod _ _ _)
    · exact hnotChroma x y j i hx hy hxc hyc hj hi (Nat.mod_add_mod _ _ _)

/-! ### The four specializations -/

/-- The engine in COPY, its copies in the windows and apart (R155). -/
theorem inCopyPhase_runCopy {t : Topology} {w : Nat} {s : State} (hp : s.phase = .copy)
    (h : copiesApart t w s.ctx) :
    inCopyPhase s (runCopy t w s) =
      .next (copyDone { s with mem := copyAll w (copyItems t (engOperands t w s.ctx)) s.mem }) := by
  simp only [inCopyPhase, hp, runCopy_next h.1 h.2]

section

variable {w : Nat} (hw : w ≤ addrSpace) {s : State} (hp : s.phase = .copy) (hm : Memory.wf s.mem = true)

include hw hp hm

/-- The COPY phase of PACKED at any width: its next state, and the texels it leaves (R124, R155). -/
theorem packedPhase_copies (h : packedContract w s.ctx ∨ copiesApart .packed w s.ctx) :
    ∃ m, inCopyPhase s (runCopy .packed w s) = .next (copyDone { s with mem := m }) ∧
      packedCopied w s.ctx.lw.toNat s.ctx.lh.toNat (ctxSrc s.ctx (channelPlane .packed w 0)).toNat
        (ctxSrc s.ctx (channelPlane .packed w 1)).toNat (ctxSrc s.ctx (channelPlane .packed w 2)).toNat
        (elementStride s.ctx.ls w) (elementStride s.ctx.cs w) s.ctx.mainBase.toNat
        (elementStride s.ctx.mainPitch w) s.mem m :=
  have hapart := h.elim (copiesApart_of_packedContract hw) id
  ⟨_, inCopyPhase_runCopy hp hapart, packedCopied_copyAll (o := engOperands .packed w s.ctx) hm hw hapart.2⟩

/-- The COPY phase of SPLIT at any width: its next state, and the samples it leaves (R125, R126, R155). -/
theorem splitPhase_copies (h : splitContract w s.ctx ∨ copiesApart .split w s.ctx) :
    ∃ m, inCopyPhase s (runCopy .split w s) = .next (copyDone { s with mem := m }) ∧
      splitCopied w (chromaOffset w) s.ctx.lw.toNat s.ctx.lh.toNat s.ctx.cw.toNat s.ctx.ch.toNat
        (ctxSrc s.ctx (channelPlane .split w 0)).toNat (ctxSrc s.ctx (channelPlane .split w 1)).toNat
        (ctxSrc s.ctx (channelPlane .split w 2)).toNat (elementStride s.ctx.ls w) (elementStride s.ctx.cs w)
        s.ctx.mainBase.toNat (elementStride s.ctx.mainPitch w) s.ctx.chromaBase.toNat
        (elementStride s.ctx.chromaPitch w) s.mem m :=
  have hapart := h.elim (copiesApart_of_splitContract hw) id
  ⟨_, inCopyPhase_runCopy hp hapart, splitCopied_copyAll (o := engOperands .split w s.ctx) hm hw hapart.2⟩

end

/-- Settles O20: PACKED at W = 1, where channels 0, 1, 2 are planes 2, 1, 0 and strides are byte strides. -/
theorem enginePackedOneCopies : Obligations.EnginePackedOneCopies := by
  refine ⟨rfl, fun s hp hm hcontract => ?_⟩
  obtain ⟨m, hnext, hcopied⟩ := packedPhase_copies (by decide) hp hm hcontract
  rw [elementStride_one, elementStride_one, elementStride_one] at hcopied
  exact ⟨_, hnext, hcopied, rfl⟩

/-- Settles O21: PACKED at W = 2, where channels 0, 1, 2 are planes 0, 1, 2 and strides are halved. -/
theorem enginePackedTwoCopies : Obligations.EnginePackedTwoCopies := by
  refine ⟨rfl, fun s hp hm hcontract => ?_⟩
  obtain ⟨m, hnext, hcopied⟩ := packedPhase_copies (by decide) hp hm hcontract
  exact ⟨_, hnext, hcopied, rfl⟩

/-- Settles O22: SPLIT at W = 1, where channels 1 and 2 are planes 2 and 1, the chroma pairs are displaced by one
slot, and strides are byte strides. -/
theorem engineSplitOneCopies : Obligations.EngineSplitOneCopies := by
  refine ⟨rfl, fun s hp hm hcontract => ?_⟩
  obtain ⟨m, hnext, hcopied⟩ := splitPhase_copies (by decide) hp hm hcontract
  rw [elementStride_one, elementStride_one, elementStride_one, elementStride_one] at hcopied
  exact ⟨_, hnext, hcopied, rfl⟩

/-- Settles O23: SPLIT at W = 2, where channels 1 and 2 are planes 1 and 2, the chroma pairs stand in place, and
strides are halved. -/
theorem engineSplitTwoCopies : Obligations.EngineSplitTwoCopies := by
  refine ⟨rfl, fun s hp hm hcontract => ?_⟩
  obtain ⟨m, hnext, hcopied⟩ := splitPhase_copies (by decide) hp hm hcontract
  exact ⟨_, hnext, hcopied, rfl⟩

end Sys2Proof.Machine
end

