-- ==== Sys2Proof/Proofs/UploadTwice.lean ====
section
/-! An upload that succeeds goes through its grants to COPY, and run again on the state it left, with the same
answers, it leaves the same memory. Spec: 40_plane_upload_engine.md R138; 41_frame_upload_coordinator.md R152 to
R158, R166. -/

namespace Sys2Proof.Machine

open Sys2Proof

/-! ### One phase at a time -/

theorem runPhases_next {n : Nat} {s t : State} (h : phaseStep s = .next t) :
    runPhases (n + 1) s = runPhases n t := by
  simp only [runPhases, h]

/-- The block stays in IDLE (R158). -/
theorem runPhases_idle {s : State} (hp : s.phase = .idle) (n : Nat) : runPhases n s = .next s := by
  induction n with
  | zero => rfl
  | succ n ih => rw [runPhases_next (phaseStep_idle hp), ih]

theorem phaseStep_lockMain_absent {s : State} (hp : s.phase = .lockMain)
    (h : presentBit s.ctx.present (mainSel s.ctx.present) = false) :
    phaseStep s = .next (finish false .mainAbsent s) := by
  simp [phaseStep, hp, h, internalStep]

theorem phaseStep_lockMain_answered {s : State} (hp : s.phase = .lockMain)
    (h : presentBit s.ctx.present (mainSel s.ctx.present) = true) {a : LockAnswer} {r : List LockAnswer}
    (ha : s.answers = a :: r) : phaseStep s = .next (mainAnswered (mainHandle s.ctx) a r s) := by
  simp [phaseStep, hp, h, execLock, ha]

theorem phaseStep_lockChroma_absent {s : State} (hp : s.phase = .lockChroma)
    (h : presentBit s.ctx.present .chroma = false) :
    phaseStep s =
      .next { s with ctx := { s.ctx with pendOk := false, pendCause := .chromaAbsent }, phase := .unlockMain } := by
  simp [phaseStep, hp, h, internalStep]

theorem phaseStep_lockChroma_answered {s : State} (hp : s.phase = .lockChroma)
    (h : presentBit s.ctx.present .chroma = true) {a : LockAnswer} {r : List LockAnswer}
    (ha : s.answers = a :: r) : phaseStep s = .next (chromaAnswered s.ctx.hChroma a r s) := by
  simp [phaseStep, hp, h, execLock, ha]

/-- The COPY phase runs the specialization of the context (R155). -/
theorem phaseStep_copy {s : State} (hp : s.phase = .copy) :
    phaseStep s = runCopy (topology s.ctx.present) (sampleWidth s.ctx.depth) s := by
  simp only [phaseStep, hp, execEngine_engsel hp]

theorem phaseStep_unlockChroma {s : State} (hp : s.phase = .unlockChroma) :
    phaseStep s = .next (chromaReleased s.ctx.hChroma s) := by
  simp only [phaseStep, hp, execUnlock]

theorem phaseStep_unlockMain {s : State} (hp : s.phase = .unlockMain) :
    phaseStep s = .next (mainReleased (mainHandle s.ctx) s) := by
  simp only [phaseStep, hp, execUnlock]

/-! ### From COPY to the end -/

/-- The context when the operation whose COPY ran in `c` has succeeded (R155 to R157). -/
def ctxSucceeded (c : Ctx) : Ctx :=
  { c with pendOk := true, pendCause := .none, mainHeld := false, chromaHeld := false }

/-- `t` is where an operation whose COPY began in `s` ends in success with the memory `m`. -/
structure SucceededFrom (s : State) (m : Memory) (t : State) : Prop where
  mem : t.mem = m
  regs : t.regs = s.regs
  ctx : t.ctx = ctxSucceeded s.ctx
  phase : t.phase = .idle
  status : t.status = statusFinished true .none

/-- After COPY the unlocks end the operation in success (R156 to R158). -/
theorem runPhases_copyDone (s : State) (m : Memory) (d n : Nat) :
    ∃ t, runPhases (n + 2) (copyDone { s with mem := m, draws := d }) = .next t ∧ SucceededFrom s m t := by
  cases hc : s.ctx.chromaHeld
  case true =>
    have hphase : (copyDone { s with mem := m, draws := d }).phase = .unlockChroma := by simp [hc]
    rw [runPhases_next (phaseStep_unlockChroma hphase), runPhases_next (phaseStep_unlockMain rfl),
      runPhases_idle rfl]
    exact ⟨_, rfl, rfl, rfl, rfl, rfl, rfl⟩
  case false =>
    have hphase : (copyDone { s with mem := m, draws := d }).phase = .unlockMain := by simp [hc]
    rw [runPhases_next (phaseStep_unlockMain hphase), runPhases_idle rfl]
    exact ⟨_, rfl, rfl, rfl, by simp [ctxSucceeded, hc], rfl, rfl⟩

/-- From COPY an operation that is not stopped succeeds; without overlap its memory is the one its copies leave
(R155 to R158). -/
theorem runPhases_copy {s t : State} {n : Nat} (hp : s.phase = .copy) (h : runPhases (n + 3) s = .next t) :
    ∃ m, SucceededFrom s m t ∧ allInWindow s.ctx (sampleWidth s.ctx.depth) (operationItems s.ctx) = true ∧
      (noOverlap (sampleWidth s.ctx.depth) (operationItems s.ctx) = true →
        m = copyAll (sampleWidth s.ctx.depth) (operationItems s.ctx) s.mem) := by
  rw [runPhases, phaseStep_copy hp] at h
  rcases runCopy_cases (topology s.ctx.present) (sampleWidth s.ctx.depth) s with
    ⟨hf, -⟩ | ⟨m, d, hn, hwin, -, -, hrow⟩
  · rw [hf] at h; cases h
  · rw [hn] at h
    obtain ⟨u, hu, hsucceeded⟩ := runPhases_copyDone s m d n
    obtain rfl : u = t := by injection hu.symm.trans h
    exact ⟨m, hsucceeded, hwin, fun hno => (hrow hno).1⟩

/-- From COPY an operation whose copies stay in the windows and apart succeeds. -/
theorem runPhases_copy_apart {s : State} (n : Nat) (hp : s.phase = .copy)
    (hwin : allInWindow s.ctx (sampleWidth s.ctx.depth) (operationItems s.ctx) = true)
    (hno : noOverlap (sampleWidth s.ctx.depth) (operationItems s.ctx) = true) :
    ∃ t, runPhases (n + 3) s = .next t ∧
      SucceededFrom s (copyAll (sampleWidth s.ctx.depth) (operationItems s.ctx) s.mem) t := by
  rw [runPhases_next ((phaseStep_copy hp).trans (runCopy_next hwin hno))]
  exact runPhases_copyDone s _ s.draws n

/-! ### From acceptance to COPY -/

/-- The operation has failed or waits for an answer: no step of the block makes it succeed. -/
structure CannotSucceed (s : State) : Prop where
  status : s.status.success = false
  phase : s.phase = .idle ∨ (s.phase = .unlockMain ∧ s.ctx.pendOk = false) ∨
    ((s.phase = .lockMain ∨ s.phase = .lockChroma) ∧ s.answers = [])

theorem phaseStep_keeps_cannotSucceed (s t : State) (hs : CannotSucceed s) (h : phaseStep s = .next t) :
    CannotSucceed t := by
  obtain ⟨hstatus, hphase⟩ := hs
  rcases phaseStep_cases h with ⟨-, rfl⟩ | ⟨hp, -, rfl⟩ | ⟨-, -, rfl⟩ | ⟨hp, -, a, r, ha, rfl⟩ | ⟨hp, -, rfl⟩ |
    ⟨hp, -, a, r, ha, rfl⟩ | ⟨hp, -⟩ | ⟨hp, -⟩ | ⟨hp, rfl⟩
  · exact ⟨hstatus, hphase⟩
  · exact ⟨rfl, .inl rfl⟩
  · exact ⟨hstatus, hphase⟩
  · simp [hp, ha] at hphase
  · exact ⟨hstatus, .inr (.inl ⟨rfl, rfl⟩)⟩
  · simp [hp, ha] at hphase
  · simp [hp] at hphase
  · simp [hp] at hphase
  · have hpend : s.ctx.pendOk = false := by simpa [hp] using hphase
    exact ⟨hpend, .inl rfl⟩

/-- An operation that ends in success could succeed all along. -/
theorem not_cannotSucceed {s t : State} {n : Nat} (h : runPhases n s = .next t) (ht : t.status.success = true) :
    ¬ CannotSucceed s := by
  intro hs
  rw [(runPhases_keeps phaseStep_keeps_cannotSucceed hs h).status] at ht
  cases ht

/-- An operation in LOCK_MAIN that succeeds is granted its main lock and goes on from there (R152). -/
theorem mainGrant_of_success {s t : State} {n : Nat} (h : runPhases (n + 1) s = .next t)
    (ht : t.status.success = true) (hp : s.phase = .lockMain) (hs : s.status.success = false) :
    presentBit s.ctx.present (mainSel s.ctx.present) = true ∧ ∃ b p e r, s.answers = .grant b p e :: r ∧
      runPhases n (mainAnswered (mainHandle s.ctx) (.grant b p e) r s) = .next t := by
  cases ha : s.answers with
  | nil => exact absurd ⟨hs, .inr (.inr ⟨.inl hp, ha⟩)⟩ (not_cannotSucceed h ht)
  | cons a r =>
    cases hmain : presentBit s.ctx.present (mainSel s.ctx.present)
    case false =>
      rw [runPhases_next (phaseStep_lockMain_absent hp hmain)] at h
      exact absurd ⟨rfl, .inl rfl⟩ (not_cannotSucceed h ht)
    case true =>
      rw [runPhases_next (phaseStep_lockMain_answered hp hmain ha)] at h
      cases a with
      | deny => exact absurd ⟨rfl, .inl rfl⟩ (not_cannotSucceed h ht)
      | grant b p e => exact ⟨rfl, b, p, e, r, rfl, h⟩

/-- An operation in LOCK_CHROMA that succeeds is granted its chroma lock (R153). -/
theorem chromaGrant_of_success {s t : State} {n : Nat} (h : runPhases (n + 1) s = .next t)
    (ht : t.status.success = true) (hp : s.phase = .lockChroma) (hs : s.status.success = false) :
    presentBit s.ctx.present .chroma = true ∧ ∃ b p e r, s.answers = .grant b p e :: r := by
  cases ha : s.answers with
  | nil => exact absurd ⟨hs, .inr (.inr ⟨.inr hp, ha⟩)⟩ (not_cannotSucceed h ht)
  | cons a r =>
    cases hchroma : presentBit s.ctx.present .chroma
    case false =>
      rw [runPhases_next (phaseStep_lockChroma_absent hp hchroma)] at h
      exact absurd ⟨hs, .inr (.inl ⟨rfl, rfl⟩)⟩ (not_cannotSucceed h ht)
    case true =>
      rw [runPhases_next (phaseStep_lockChroma_answered hp hchroma ha)] at h
      cases a with
      | deny => exact absurd ⟨hs, .inr (.inl ⟨rfl, rfl⟩)⟩ (not_cannotSucceed h ht)
      | grant b p e => exact ⟨rfl, b, p, e, r, rfl⟩

/-- `c` is the context in which COPY of the command `v` runs: the surfaces it needs are present and its locks are
granted (R152, R153). -/
inductive ReachesCopy (v : Word) (s : State) : Ctx → Prop where
  /-- A single surface, one grant. -/
  | single {b : Addr} {p : Word} {e : Nat} {r : List LockAnswer}
      (hmain : presentBit (cmdPresent v) (mainSel (cmdPresent v)) = true) (hsingle : single (cmdPresent v) = true)
      (ha : s.answers = .grant b p e :: r) : ReachesCopy v s (ctxMainGranted v s b p e)
  /-- Luma and chroma, two grants. -/
  | dual {b : Addr} {p : Word} {e : Nat} {b' : Addr} {p' : Word} {e' : Nat} {r : List LockAnswer}
      (hmain : presentBit (cmdPresent v) (mainSel (cmdPresent v)) = true) (hdual : single (cmdPresent v) = false)
      (hchroma : presentBit (cmdPresent v) .chroma = true)
      (ha : s.answers = .grant b p e :: .grant b' p' e' :: r) :
      ReachesCopy v s (ctxBothGranted v s b p e b' p' e')

section

variable {v : Word} {s : State}

@[simp] theorem accept_present : (accept v s).ctx.present = cmdPresent v := rfl

/-- After the main grant a command with two surfaces locks chroma (R152). -/
theorem mainAnswered_accept_phase (hdual : single (cmdPresent v) = false) (h : Word) (b : Addr) (p : Word) (e : Nat)
    (r : List LockAnswer) : (mainAnswered h (.grant b p e) r (accept v s)).phase = .lockChroma :=
  if_neg (by rw [accept_present]; exact Bool.eq_false_iff.mp hdual)

/-- A command that succeeds was granted the locks it needs (R152, R153). -/
theorem reachesCopy_of_success {t : State} (h : runPhases 5 (accept v s) = .next t)
    (ht : t.status.success = true) : ∃ c, ReachesCopy v s c := by
  obtain ⟨hmain, b, p, e, r, ha, h⟩ := mainGrant_of_success h ht rfl rfl
  rw [accept_present] at hmain
  cases hs : single (cmdPresent v)
  case true => exact ⟨_, .single hmain hs ha⟩
  case false =>
    obtain ⟨hchroma, b', p', e', r', hr⟩ :=
      chromaGrant_of_success h ht (mainAnswered_accept_phase hs _ _ _ _ _) rfl
    obtain rfl : r = .grant b' p' e' :: r' := hr
    exact ⟨_, .dual hmain hs hchroma ha⟩

/-- The first step of an accepted command whose main lock is answered (R152). -/
theorem phaseStep_accept_answered (hmain : presentBit (cmdPresent v) (mainSel (cmdPresent v)) = true)
    {a : LockAnswer} {r : List LockAnswer} (ha : s.answers = a :: r) :
    phaseStep (accept v s) = .next (mainAnswered (mainHandle (accept v s).ctx) a r (accept v s)) :=
  phaseStep_lockMain_answered (s := accept v s) rfl (by rwa [accept_present]) ha

/-- A command whose locks are granted comes to COPY with its memory and registers untouched (R152, R153). -/
theorem ReachesCopy.run {c : Ctx} (h : ReachesCopy v s c) :
    ∃ n x, runPhases 5 (accept v s) = runPhases (n + 3) x ∧
      x.phase = .copy ∧ x.ctx = c ∧ x.mem = s.mem ∧ x.regs = s.regs := by
  cases h with
  | single hmain hsingle ha =>
    exact ⟨1, _, runPhases_next (phaseStep_accept_answered hmain ha), if_pos hsingle, rfl, rfl, rfl⟩
  | dual hmain hdual hchroma ha =>
    have hp := mainAnswered_accept_phase (s := s) hdual (mainHandle (accept v s).ctx)
    exact ⟨0, _, (runPhases_next (phaseStep_accept_answered hmain ha)).trans
      (runPhases_next (phaseStep_lockChroma_answered (hp _ _ _ _) hchroma rfl)), rfl, rfl, rfl, rfl⟩

end

/-- Given again on the state its success left, with the same answers, a command comes to COPY in the same context,
but for the pending result, which COPY writes and does not read. -/
theorem ReachesCopy.again {v : Word} {s s' : State} {c : Ctx} (h : ReachesCopy v s c) (hregs : s'.regs = s.regs)
    (hanswers : s'.answers = s.answers) (hctx : s'.ctx = ctxSucceeded c) :
    ReachesCopy v s' { c with pendOk := true, pendCause := .none } := by
  cases h with
  | @single b p e r hmain hsingle ha =>
    have hc : ctxMainGranted v s' b p e =
        { ctxMainGranted v s b p e with pendOk := true, pendCause := .none } := by
      rw [ctxMainGranted, hregs, hctx]; rfl
    exact hc ▸ .single hmain hsingle (hanswers.trans ha)
  | @dual b p e b' p' e' r hmain hdual hchroma ha =>
    have hc : ctxBothGranted v s' b p e b' p' e' =
        { ctxBothGranted v s b p e b' p' e' with pendOk := true, pendCause := .none } := by
      rw [ctxBothGranted, ctxMainGranted, hregs, hctx]; rfl
    exact hc ▸ .dual hmain hdual hchroma (hanswers.trans ha)

/-! ### Twice -/

/-- Copies that do not overlap, made again, change nothing: no source was written (R138). -/
theorem copyAll_copyAll {w : Nat} {l : List CopyItem} {m : Memory} (hm : Memory.wf m = true) (hw : w ≤ addrSpace)
    (hno : noOverlap w l = true) : copyAll w l (copyAll w l m) = copyAll w l m := by
  refine Memory.ext (copyAll_wf (copyAll_wf hm)) (copyAll_wf hm) fun a => ?_
  by_cases ha : a ∈ writtenAddrs w l
  · obtain ⟨i, hi, j, hj, rfl⟩ := mem_writtenAddrs.mp ha
    have hsrc : (i.src + j) % addrSpace ∉ writtenAddrs w l :=
      (noOverlap_iff.mp hno).2 _ (mem_readAddrs.mpr ⟨i, hi, j, hj, rfl⟩)
    rw [readByte_copyAll_same (copyAll_wf hm) hw hno hi hj, readByte_copyAll_other hsrc,
      readByte_copyAll_same hm hw hno hi hj]
  · exact readByte_copyAll_other ha

theorem sampleWidth_le_addrSpace (d : BitVec 8) : sampleWidth d ≤ addrSpace := by
  rcases sampleWidth_cases d with h | h <;> rw [h] <;> decide

/-- Settles O40: both runs come to COPY in one context but for the pending result, and the second COPY makes the
copies of the first again. -/
theorem uploadTwiceSameMemory : Obligations.UploadTwiceSameMemory := by
  intro i v s t hi _ hp hm hexec _ hsuccess hno
  rw [exec_command_idle hi hp] at hexec
  obtain ⟨c, hreach⟩ := reachesCopy_of_success hexec hsuccess
  obtain ⟨n, x, hrun, hxp, rfl, hxm, hxr⟩ := hreach.run
  obtain ⟨m, hfirst, hwin, hrow⟩ := runPhases_copy hxp (hrun.symm.trans hexec)
  rw [hfirst.ctx] at hno
  obtain ⟨k, y, hrun', hyp, hyc, hym, -⟩ :=
    (hreach.again (s' := { t with answers := s.answers }) (hfirst.regs.trans hxr) rfl hfirst.ctx).run
  obtain ⟨u, hu, hsecond⟩ := runPhases_copy_apart k hyp (by rw [hyc]; exact hwin) (by rw [hyc]; exact hno)
  refine ⟨u, ?_, ?_, hsecond.status.trans hfirst.status.symm⟩
  · rw [exec_command_idle hi (by exact hfirst.phase), hrun', hu]
  · rw [hsecond.mem, hyc, hym]
    change copyAll (sampleWidth x.ctx.depth) (operationItems x.ctx) t.mem = t.mem
    rw [hfirst.mem, hrow hno]
    exact copyAll_copyAll (hxm ▸ hm) (sampleWidth_le_addrSpace _) hno

end Sys2Proof.Machine
end

