-- ==== Sys2Proof/Proofs/Phases.lean ====
section
/-! What the block issues in each phase, and its step in the two LOCK phases. Spec: 30_encoding.md R93 to R99;
41_frame_upload_coordinator.md R152, R153, R155 to R157. -/

namespace Sys2Proof.Machine

open Sys2Proof

/-! ### The main surface and the engine, by the present bits -/

theorem mainSel_yuv444 {p : BitVec 4} (h : p.getLsbD 2 = true) : mainSel p = .yuv444 := if_pos h

theorem mainSel_rgb {p : BitVec 4} (h : p.getLsbD 2 = false) (h' : p.getLsbD 3 = true) : mainSel p = .rgb := by
  simp only [mainSel, presentBit, h, h', if_true, Bool.false_eq_true, if_false]

theorem mainSel_luma {p : BitVec 4} (h : p.getLsbD 2 = false) (h' : p.getLsbD 3 = false) : mainSel p = .luma := by
  simp only [mainSel, presentBit, h, h', Bool.false_eq_true, if_false]

/-- A single main surface is selected by its present bit (R93, R95). -/
theorem presentBit_mainSel_of_single {p : BitVec 4} (h : single p = true) : presentBit p (mainSel p) = true := by
  cases hyuv : p.getLsbD 2
  case true => rw [mainSel_yuv444 hyuv, presentBit, hyuv]
  case false =>
    have hrgb : p.getLsbD 3 = true := by simpa only [single, presentBit, hyuv, Bool.false_or] using h
    rw [mainSel_rgb hyuv hrgb, presentBit, hrgb]

/-- With two surfaces the main one is luma (R95, R96). -/
theorem mainSel_of_dual {p : BitVec 4} (h : single p = false) : mainSel p = .luma := by
  obtain ⟨hyuv, hrgb⟩ := Bool.or_eq_false_iff.mp h
  exact mainSel_luma hyuv hrgb

/-- The main surface is absent only when it is luma and luma is absent (R93, R95). -/
theorem presentBit_mainSel_eq_false (p : BitVec 4) :
    presentBit p (mainSel p) = false ↔ single p = false ∧ p.getLsbD 0 = false := by
  cases h : single p
  case true => simp [presentBit_mainSel_of_single h]
  case false => simp only [mainSel_of_dual h, presentBit, true_and]

theorem single_iff (p : BitVec 4) : single p = true ↔ p.getLsbD 2 = true ∨ p.getLsbD 3 = true := by
  simp only [single, presentBit, Bool.or_eq_true]

/-- The engine ENGSEL names, by topology and DEPTH (R99). -/
theorem decodeEngsel_engsel (p : BitVec 4) (d : BitVec 8) :
    decodeEngsel (engsel p d) = if single p = true then (if d.toNat ≤ 8 then .engPacked1 else .engPacked2)
      else (if d.toNat ≤ 8 then .engSplit1 else .engSplit2) := by
  rw [engsel_eq]
  split <;> split <;> rfl

/-! ### What the block issues -/

/-- In LOCK_MAIN the block issues a LOCK of its main surface when that is present (R152). -/
theorem issued_lockMain {s : State} (hp : s.phase = .lockMain) {f : Surface} (hf : mainSel s.ctx.present = f) :
    issued s = if presentBit s.ctx.present f = true then some (.lock (ctxHandle s.ctx f)) else none := by
  simp only [issued, hp, mainHandle, hf]

/-- Settles O4: the rule of each phase, with the main surface and the engine read off the present bits. -/
theorem issuedByPhase : Obligations.IssuedByPhase := by
  intro s
  refine ⟨?idle, ?yuv444, ?rgb, ?luma, ?lockChroma, ?copy, ?unlockChroma, ?unlockMain⟩
  case yuv444 => exact fun hp hyuv => (issued_lockMain hp (mainSel_yuv444 hyuv)).trans (if_pos hyuv)
  case rgb => exact fun hp hyuv hrgb => (issued_lockMain hp (mainSel_rgb hyuv hrgb)).trans (if_pos hrgb)
  case luma => exact fun hp hyuv hrgb => issued_lockMain hp (mainSel_luma hyuv hrgb)
  case copy => exact fun hp => by simp only [issued, hp, decodeEngsel_engsel, single_iff]
  case lockChroma => exact fun hp => by simp only [issued, hp]; rfl
  case idle | unlockChroma | unlockMain => exact fun hp => by simp only [issued, hp]

/-! ### The LOCK phases -/

/-- Settles O16: the main surface absent, its LOCK denied, its LOCK granted. -/
theorem lockMainPhase : Obligations.LockMainPhase := by
  intro s hp ht
  rw [step_nil ht]
  exact ⟨presentBit_mainSel_eq_false _, phaseStep_lockMain_absent hp, fun hmain rest =>
    ⟨phaseStep_lockMain_answered hp hmain, fun b p e => phaseStep_lockMain_answered hp hmain⟩⟩

/-- Only a main grant of an operation with two surfaces leads to LOCK_CHROMA (R152, R166). -/
theorem phaseStep_enters_lockChroma {s t : State} (h : phaseStep s = .next t) (hs : s.phase ≠ .lockChroma)
    (ht : t.phase = .lockChroma) : single t.ctx.present = false := by
  rcases phaseStep_cases h with ⟨hp, rfl⟩ | ⟨-, -, rfl⟩ | ⟨-, -, rfl⟩ | ⟨-, -, a, r, -, rfl⟩ | ⟨hp, -⟩ |
    ⟨hp, -⟩ | ⟨-, m, d, rfl, -⟩ | ⟨-, rfl⟩ | ⟨-, rfl⟩
  case inr.inr.inr.inl =>
    cases a with
    | deny => cases ht
    | grant b p e =>
      cases hsingle : single s.ctx.present
      case false => exact hsingle
      case true => simp [mainAnswered, hsingle] at ht
  case inr.inr.inr.inr.inr.inr.inl => cases hc : s.ctx.chromaHeld <;> simp [hc] at ht
  case inl | inr.inr.inl | inr.inr.inr.inr.inl | inr.inr.inr.inr.inr.inl => contradiction
  all_goals cases ht

/-- Settles O17: how the phase is entered, then the chroma surface absent, its LOCK denied, its LOCK granted. -/
theorem lockChromaPhase : Obligations.LockChromaPhase := by
  refine ⟨fun s t hturns hs h ht => phaseStep_enters_lockChroma ((step_nil hturns).symm.trans h) hs ht,
    fun s hp hturns => ?_⟩
  rw [step_nil hturns]
  exact ⟨phaseStep_lockChroma_absent hp, fun hchroma rest =>
    ⟨phaseStep_lockChroma_answered hp hchroma, fun b p e => phaseStep_lockChroma_answered hp hchroma⟩⟩

end Sys2Proof.Machine
end

