-- ==== Sys2Proof/Proofs/CommandRuns.lean ====
section
/-! An upload command as a whole: every way it can end, with the whole state it leaves, and the lock-port traces
of each. Spec: 41_frame_upload_coordinator.md R152 to R166; 42_host_and_lock_transactions.md R184, R185. -/

namespace Sys2Proof.Machine

open Sys2Proof

/-! ### Steps of the lock phases -/

/-- A state the block's step leaves as it is stays (R184: a LOCK without an answer). -/
theorem runPhases_of_fixed {s : State} (h : phaseStep s = .next s) (n : Nat) : runPhases n s = .next s := by
  induction n with
  | zero => rfl
  | succ n ih => rw [runPhases_next h, ih]

theorem phaseStep_lockMain_waits {s : State} (hp : s.phase = .lockMain)
    (h : presentBit s.ctx.present (mainSel s.ctx.present) = true) (ha : s.answers = []) :
    phaseStep s = .next s := by
  simp [phaseStep, hp, h, execLock, ha]

theorem phaseStep_lockChroma_waits {s : State} (hp : s.phase = .lockChroma)
    (h : presentBit s.ctx.present .chroma = true) (ha : s.answers = []) : phaseStep s = .next s := by
  simp [phaseStep, hp, h, execLock, ha]

/-- UNLOCK of the newest lock: the agent holds what it held before that grant (R156, R185). -/
theorem chromaReleased_newest {s : State} {h : Word} {b : Addr} {p : Word} {e : Nat} {l : List HeldLock}
    (ha : s.agentLocks = agentGrant h b p e l) :
    chromaReleased h s =
      { s with
        lockTrace := s.lockTrace ++ [.unlock h], agentLocks := l
        ctx := { s.ctx with chromaHeld := false }, phase := .unlockMain } := by
  rw [chromaReleased, unlockAcked, ha, agentGrant, agentRelease_head]

/-- The same for the main lock, whose UNLOCK ends the operation (R157, R185). -/
theorem mainReleased_newest {s : State} {h : Word} {b : Addr} {p : Word} {e : Nat} {l : List HeldLock}
    (ha : s.agentLocks = agentGrant h b p e l) :
    mainReleased h s =
      finish s.ctx.pendOk s.ctx.pendCause
        { s with
          lockTrace := s.lockTrace ++ [.unlock h], agentLocks := l, ctx := { s.ctx with mainHeld := false } } := by
  rw [mainReleased, unlockAcked, ha, agentGrant, agentRelease_head]

theorem runPhases_unlockMain {s : State} (hp : s.phase = .unlockMain) (n : Nat) :
    runPhases (n + 1) s = .next (mainReleased (mainHandle s.ctx) s) := by
  rw [runPhases_next (phaseStep_unlockMain hp), runPhases_idle rfl]

theorem runPhases_unlockChroma {s : State} (hp : s.phase = .unlockChroma) (n : Nat) :
    runPhases (n + 2) s =
      .next (mainReleased (mainHandle s.ctx) (chromaReleased s.ctx.hChroma s)) := by
  rw [runPhases_next (phaseStep_unlockChroma hp), runPhases_unlockMain rfl]
  rfl

/-- An operation that passes COPY makes its copies there (R155). -/
theorem phaseStep_copy_of_runPhases {s t : State} {n : Nat} (hp : s.phase = .copy)
    (h : runPhases (n + 1) s = .next t) : ∃ m d, phaseStep s = .next (copyDone { s with mem := m, draws := d }) := by
  rw [runPhases, phaseStep_copy hp] at h
  rw [phaseStep_copy hp]
  rcases runCopy_cases (topology s.ctx.present) (sampleWidth s.ctx.depth) s with ⟨hf, -⟩ | ⟨m, d, hn, -⟩
  · rw [hf] at h; cases h
  · exact ⟨m, d, hn⟩

/-! ### The states of a command -/

/-- The context when an operation that locked its main surface has ended with this result (R156 to R158). -/
def ctxEnded (c : Ctx) (ok : Bool) (cause : Cause) : Ctx :=
  { c with pendOk := ok, pendCause := cause, mainHeld := false, chromaHeld := false }

/-- The state the command `v` given in `s` ends in, memory, answers and draws apart: the context `c` with its
locks given back, and the lock-port transactions (R158, R159). -/
def commandEnded (v : Word) (s : State) (c : Ctx) (ok : Bool) (cause : Cause) (events : List LockEvent) : State :=
  finish ok cause { accept v s with ctx := ctxEnded c ok cause, lockTrace := s.lockTrace ++ events }

/-- The handle of the main surface of the command `v` (R95). -/
def commandHandle (v : Word) (s : State) : Word := mainHandle (accept v s).ctx

/-- An accepted command with its main lock granted (R152). -/
def mainGranted (v : Word) (s : State) (b : Addr) (p : Word) (e : Nat) (r : List LockAnswer) : State :=
  mainAnswered (commandHandle v s) (.grant b p e) r (accept v s)

/-- The same with the chroma lock granted too (R153). -/
def bothGranted (v : Word) (s : State) (b : Addr) (p : Word) (e : Nat) (b' : Addr) (p' : Word) (e' : Nat)
    (r : List LockAnswer) : State :=
  chromaAnswered s.regs.hChroma (.grant b' p' e') r (mainGranted v s b p e r)

/-- A command with one surface, granted, in success (R162 to R165). -/
def singleSucceeded (v : Word) (s : State) (b : Addr) (p : Word) (e : Nat) (r : List LockAnswer) : State :=
  { commandEnded v s (ctxMainGranted v s b p e) true .none
      [.lock (commandHandle v s) (.grant b p e), .unlock (commandHandle v s)] with answers := r }

/-- A command with two surfaces, both granted, in success (R160, R161). -/
def dualSucceeded (v : Word) (s : State) (b : Addr) (p : Word) (e : Nat) (b' : Addr) (p' : Word) (e' : Nat)
    (r : List LockAnswer) : State :=
  { commandEnded v s (ctxBothGranted v s b p e b' p' e') true .none
      [.lock (commandHandle v s) (.grant b p e), .lock s.regs.hChroma (.grant b' p' e'),
       .unlock s.regs.hChroma, .unlock (commandHandle v s)] with answers := r }

/-- How the command `v` given in `s` can end, with the state it leaves. -/
inductive CommandEnds (v : Word) (s : State) : State → Prop where
  | mainAbsent (hmain : presentBit (cmdPresent v) (mainSel (cmdPresent v)) = false) :
      CommandEnds v s (finish false .mainAbsent (accept v s))
  | mainDenied {r : List LockAnswer} (hmain : presentBit (cmdPresent v) (mainSel (cmdPresent v)) = true)
      (ha : s.answers = .deny :: r) :
      CommandEnds v s (finish false .mainLockDenied (lockAnswered (commandHandle v s) .deny r (accept v s)))
  | chromaAbsent {b : Addr} {p : Word} {e : Nat} {r : List LockAnswer}
      (hmain : presentBit (cmdPresent v) (mainSel (cmdPresent v)) = true) (hdual : single (cmdPresent v) = false)
      (hchroma : presentBit (cmdPresent v) .chroma = false) (ha : s.answers = .grant b p e :: r) :
      CommandEnds v s
        { commandEnded v s (ctxMainGranted v s b p e) false .chromaAbsent
            [.lock (commandHandle v s) (.grant b p e), .unlock (commandHandle v s)] with
          answers := r }
  | chromaDenied {b : Addr} {p : Word} {e : Nat} {r : List LockAnswer}
      (hmain : presentBit (cmdPresent v) (mainSel (cmdPresent v)) = true) (hdual : single (cmdPresent v) = false)
      (hchroma : presentBit (cmdPresent v) .chroma = true) (ha : s.answers = .grant b p e :: .deny :: r) :
      CommandEnds v s
        { commandEnded v s (ctxMainGranted v s b p e) false .chromaLockDenied
            [.lock (commandHandle v s) (.grant b p e), .lock s.regs.hChroma .deny, .unlock (commandHandle v s)] with
          answers := r }
  | single {b : Addr} {p : Word} {e : Nat} {r : List LockAnswer} (m : Memory) (d : Nat)
      (hsingle : single (cmdPresent v) = true) (ha : s.answers = .grant b p e :: r) :
      CommandEnds v s
        { singleSucceeded v s b p e r with mem := m, draws := d }
  | dual {b : Addr} {p : Word} {e : Nat} {b' : Addr} {p' : Word} {e' : Nat} {r : List LockAnswer} (m : Memory)
      (d : Nat) (hmain : presentBit (cmdPresent v) (mainSel (cmdPresent v)) = true)
      (hdual : single (cmdPresent v) = false) (hchroma : presentBit (cmdPresent v) .chroma = true)
      (ha : s.answers = .grant b p e :: .grant b' p' e' :: r) :
      CommandEnds v s
        { dualSucceeded v s b p e b' p' e' r with mem := m, draws := d }

/-! ### Running a command -/

section

variable {v : Word} {s : State}

theorem runPhases_mainGranted (hmain : presentBit (cmdPresent v) (mainSel (cmdPresent v)) = true) {b : Addr}
    {p : Word} {e : Nat} {r : List LockAnswer} (ha : s.answers = .grant b p e :: r) (n : Nat) :
    runPhases (n + 1) (accept v s) = runPhases n (mainGranted v s b p e r) :=
  runPhases_next (phaseStep_accept_answered hmain ha)

theorem mainGranted_phase_single (h : single (cmdPresent v) = true) (b : Addr) (p : Word) (e : Nat)
    (r : List LockAnswer) : (mainGranted v s b p e r).phase = .copy := if_pos h

theorem mainGranted_phase_dual (h : single (cmdPresent v) = false) (b : Addr) (p : Word) (e : Nat)
    (r : List LockAnswer) : (mainGranted v s b p e r).phase = .lockChroma :=
  mainAnswered_accept_phase h _ b p e r

theorem runPhases_bothGranted (hdual : single (cmdPresent v) = false)
    (hchroma : presentBit (cmdPresent v) .chroma = true) (b : Addr) (p : Word) (e : Nat) (b' : Addr) (p' : Word)
    (e' : Nat) (r : List LockAnswer) (n : Nat) :
    runPhases (n + 1) (mainGranted v s b p e (.grant b' p' e' :: r)) =
      runPhases n (bothGranted v s b p e b' p' e' r) :=
  runPhases_next (phaseStep_lockChroma_answered (mainGranted_phase_dual hdual b p e _) hchroma rfl)

/-- From COPY with one lock held to the end (R155, R157). -/
theorem runPhases_singleCopied {b : Addr} {p : Word} {e : Nat} {r : List LockAnswer} {m : Memory} {d : Nat}
    (hcopy : phaseStep (mainGranted v s b p e r) =
      .next (copyDone { mainGranted v s b p e r with mem := m, draws := d })) (n : Nat) :
    runPhases (n + 2) (mainGranted v s b p e r) =
      .next { singleSucceeded v s b p e r with mem := m, draws := d } := by
  rw [runPhases_next hcopy, runPhases_unlockMain rfl, mainReleased_newest rfl, singleSucceeded, commandEnded,
    List.append_cons s.lockTrace]
  rfl

/-- From COPY with both locks held to the end: chroma is given back before luma (R155 to R157). -/
theorem runPhases_dualCopied {b : Addr} {p : Word} {e : Nat} {b' : Addr} {p' : Word} {e' : Nat}
    {r : List LockAnswer} {m : Memory} {d : Nat}
    (hcopy : phaseStep (bothGranted v s b p e b' p' e' r) =
      .next (copyDone { bothGranted v s b p e b' p' e' r with mem := m, draws := d })) (n : Nat) :
    runPhases (n + 3) (bothGranted v s b p e b' p' e' r) =
      .next { dualSucceeded v s b p e b' p' e' r with mem := m, draws := d } := by
  rw [runPhases_next hcopy, runPhases_unlockChroma rfl, chromaReleased_newest rfl, mainReleased_newest rfl,
    dualSucceeded, commandEnded, List.append_cons s.lockTrace, List.append_cons (s.lockTrace ++ _),
    List.append_cons (s.lockTrace ++ _ ++ _)]
  rfl

/-- LOCK_CHROMA without a chroma surface: the main lock is given back (R153, R157). -/
theorem runPhases_chromaAbsent (hdual : single (cmdPresent v) = false)
    (hchroma : presentBit (cmdPresent v) .chroma = false) (b : Addr) (p : Word) (e : Nat) (r : List LockAnswer)
    (n : Nat) :
    runPhases (n + 2) (mainGranted v s b p e r) =
      .next { commandEnded v s (ctxMainGranted v s b p e) false .chromaAbsent
          [.lock (commandHandle v s) (.grant b p e), .unlock (commandHandle v s)] with answers := r } := by
  rw [runPhases_next (phaseStep_lockChroma_absent (mainGranted_phase_dual hdual b p e r) hchroma),
    runPhases_unlockMain rfl, mainReleased_newest rfl, commandEnded, List.append_cons s.lockTrace]
  rfl

/-- The chroma LOCK denied: the main lock is given back (R153, R157). -/
theorem runPhases_chromaDenied (hdual : single (cmdPresent v) = false)
    (hchroma : presentBit (cmdPresent v) .chroma = true) (b : Addr) (p : Word) (e : Nat) (r : List LockAnswer)
    (n : Nat) :
    runPhases (n + 2) (mainGranted v s b p e (.deny :: r)) =
      .next { commandEnded v s (ctxMainGranted v s b p e) false .chromaLockDenied
          [.lock (commandHandle v s) (.grant b p e), .lock s.regs.hChroma .deny, .unlock (commandHandle v s)] with
        answers := r } := by
  rw [runPhases_next (phaseStep_lockChroma_answered (mainGranted_phase_dual hdual b p e _) hchroma rfl),
    runPhases_unlockMain rfl, mainReleased_newest rfl, commandEnded, List.append_cons s.lockTrace,
    List.append_cons (s.lockTrace ++ _)]
  rfl

/-- From LOCK_CHROMA a command that comes to IDLE has ended in one of its ways (R153 to R158). -/
theorem commandEnds_of_lockChroma {t : State} {b : Addr} {p : Word} {e : Nat} {r : List LockAnswer}
    (hmain : presentBit (cmdPresent v) (mainSel (cmdPresent v)) = true) (hdual : single (cmdPresent v) = false)
    (ha : s.answers = .grant b p e :: r) (h : runPhases 4 (mainGranted v s b p e r) = .next t)
    (ht : t.phase = .idle) : CommandEnds v s t := by
  have hphase := mainGranted_phase_dual (s := s) hdual b p e r
  cases hchroma : presentBit (cmdPresent v) .chroma
  case false =>
    rw [runPhases_chromaAbsent hdual hchroma] at h
    cases h
    exact .chromaAbsent hmain hdual hchroma ha
  case true =>
    cases r with
    | nil =>
      rw [runPhases_of_fixed (phaseStep_lockChroma_waits hphase hchroma rfl)] at h
      cases h
      rw [hphase] at ht
      cases ht
    | cons a r =>
      cases a with
      | deny =>
        rw [runPhases_chromaDenied hdual hchroma] at h
        cases h
        exact .chromaDenied hmain hdual hchroma ha
      | grant b' p' e' =>
        rw [runPhases_bothGranted hdual hchroma] at h
        obtain ⟨m, d, hcopy⟩ := phaseStep_copy_of_runPhases rfl h
        rw [runPhases_dualCopied hcopy] at h
        cases h
        exact .dual m d hmain hdual hchroma ha

/-- A command that comes to IDLE has ended in one of its ways (R152 to R158). -/
theorem commandEnds_of_idle {t : State} (h : runPhases 5 (accept v s) = .next t) (ht : t.phase = .idle) :
    CommandEnds v s t := by
  cases hmain : presentBit (cmdPresent v) (mainSel (cmdPresent v))
  case false =>
    rw [runPhases_next (phaseStep_lockMain_absent (s := accept v s) rfl hmain), runPhases_idle rfl] at h
    cases h
    exact .mainAbsent hmain
  case true =>
    cases ha : s.answers with
    | nil =>
      rw [runPhases_of_fixed (phaseStep_lockMain_waits (s := accept v s) rfl hmain ha)] at h
      cases h
      cases ht
    | cons a r =>
      cases a with
      | deny =>
        rw [runPhases_next (phaseStep_accept_answered hmain ha), runPhases_idle rfl] at h
        cases h
        exact .mainDenied hmain ha
      | grant b p e =>
        rw [runPhases_mainGranted hmain ha] at h
        cases hsingle : single (cmdPresent v)
        case false => exact commandEnds_of_lockChroma hmain hsingle ha h ht
        case true =>
          obtain ⟨m, d, hcopy⟩ := phaseStep_copy_of_runPhases (mainGranted_phase_single hsingle b p e r) h
          rw [runPhases_singleCopied hcopy] at h
          cases h
          exact .single m d hsingle ha

end

/-- Settles O38: each way a command can end has its form of R159. -/
theorem operationTraces : Obligations.OperationTraces := by
  intro i v s t hi _ hp h ht
  rw [exec_command_idle hi hp] at h
  cases commandEnds_of_idle h ht with
  | mainAbsent => exact .inl ⟨rfl, rfl⟩
  | mainDenied => exact .inr (.inl ⟨rfl, rfl⟩)
  | single m d hsingle => exact .inr (.inr (.inl ⟨rfl, hsingle, _, _, _, rfl⟩))
  | chromaAbsent => exact .inr (.inr (.inr (.inl ⟨rfl, _, _, _, rfl⟩)))
  | chromaDenied => exact .inr (.inr (.inr (.inr (.inl ⟨rfl, _, _, _, rfl⟩))))
  | dual m d _ hdual => exact .inr (.inr (.inr (.inr (.inr ⟨rfl, hdual, _, _, _, _, _, _, rfl⟩))))

end Sys2Proof.Machine
end

