-- ==== Sys2Proof/Proofs/GrantedCommands.lean ====
section
/-! The six commands, granted under the contract, end in success with their copies made and nothing else
changed. Spec: 41_frame_upload_coordinator.md R160 to R165; 40_plane_upload_engine.md R130 to R133;
42_host_and_lock_transactions.md R186. -/

namespace Sys2Proof.Machine

open Sys2Proof

/-! ### The mode of a command -/

/-- The handle of the main surface a command selects (R95). -/
@[simp] theorem commandHandle_cmdWord (pl pc py pr : Bool) (d : BitVec 8) (s : State) :
    commandHandle (cmdWord pl pc py pr d) s =
      if py then s.regs.hYuv444 else if pr then s.regs.hRgb else s.regs.hLuma := by
  rw [commandHandle, mainHandle, accept_present, mainSel_cmdWord]
  cases py <;> cases pr <;> rfl

theorem sampleWidth_narrow {d : BitVec 8} (h : d.toNat ≤ 8) : sampleWidth d = 1 := if_pos h

theorem sampleWidth_wide {d : BitVec 8} (h : 8 < d.toNat) : sampleWidth d = 2 := if_neg (by omega)

theorem topology_single {p : BitVec 4} (h : single p = true) : topology p = .packed := if_pos h

theorem topology_dual {p : BitVec 4} (h : single p = false) : topology p = .split := by
  simp only [topology, h, Bool.false_eq_true, if_false]

/-- A DUAL command with luma and chroma present: two surfaces, and the main one is luma (R91, R95, R101). -/
theorem dualCommand_mode (d : BitVec 8) :
    single (cmdPresent (cmdWord true true false false d)) = false ∧
      presentBit (cmdPresent (cmdWord true true false false d))
        (mainSel (cmdPresent (cmdWord true true false false d))) = true ∧
      presentBit (cmdPresent (cmdWord true true false false d)) .chroma = true := by
  rw [single_cmdWord, mainSel_cmdWord]
  exact ⟨rfl, (cmdPresent_getLsbD (by decide)).trans (cmdWord_pLuma _ _ _ _ _),
    (cmdPresent_getLsbD (by decide)).trans (cmdWord_pChroma _ _ _ _ _)⟩

/-- A host's read of STATUS after a success (R35, R180). -/
theorem readReg_status_succeeded {s : State} (h : s.status = statusFinished true .none) : readReg s 1 = 0x06 := by
  rw [show readReg s 1 = statusWord s.status from rfl, h]
  decide

section

variable {i : Instr} {v : Word} {s : State} {b : Addr} {p : Word} {e : Nat} {b' : Addr} {p' : Word}
  {e' : Nat} {r : List LockAnswer}

/-- What a command with one surface leaves in success, field by field (R158). -/
theorem singleSucceeded_frame (hp : s.phase = .idle) (m : Memory) :
    ({ singleSucceeded v s b p e r with mem := m } : State) =
      { s with
        cmd := v, status := statusFinished true .none, ctx := ctxSucceeded (ctxMainGranted v s b p e), mem := m
        answers := r
        lockTrace := s.lockTrace ++ [.lock (commandHandle v s) (.grant b p e), .unlock (commandHandle v s)] } := by
  rw [singleSucceeded, commandEnded, finish, accept, hp]
  rfl

/-- A command with one surface, granted under the contract, succeeds and leaves its packed texels (R130, R131,
R162 to R165). -/
theorem exec_singleCommand {w : Nat} (hi : encode i = .cmd v) (hp : s.phase = .idle)
    (hm : Memory.wf s.mem = true) (hsingle : single (cmdPresent v) = true) (hw : sampleWidth (cmdDepth v) = w)
    (ha : s.answers = .grant b p e :: r) (hcontract : packedContract w (ctxMainGranted v s b p e)) :
    ∃ m, exec i s = .next { singleSucceeded v s b p e r with mem := m } ∧
      packedCopied w s.regs.lumaWidth.toNat s.regs.lumaHeight.toNat
        (ctxSrc (ctxMainGranted v s b p e) (channelPlane .packed w 0)).toNat
        (ctxSrc (ctxMainGranted v s b p e) (channelPlane .packed w 1)).toNat
        (ctxSrc (ctxMainGranted v s b p e) (channelPlane .packed w 2)).toNat
        (elementStride s.regs.lumaStride w) (elementStride s.regs.chromaStride w) b.toNat (elementStride p w)
        s.mem m := by
  subst hw
  have hphase := mainGranted_phase_single (s := s) hsingle b p e r
  obtain ⟨m, hnext, hcopied⟩ := packedPhase_copies (sampleWidth_le_addrSpace _) hphase hm (.inl hcontract)
  have hcopy := (inCopyPhase_next hnext).2
  rw [← topology_single hsingle] at hcopy
  refine ⟨m, ?_, hcopied⟩
  rw [exec_command_idle hi hp, runPhases_mainGranted (presentBit_mainSel_of_single hsingle) ha]
  exact runPhases_singleCopied ((phaseStep_copy hphase).trans hcopy) 2

/-- What a command with two surfaces leaves in success, field by field (R158). -/
theorem dualSucceeded_frame (hp : s.phase = .idle) (m : Memory) :
    ({ dualSucceeded v s b p e b' p' e' r with mem := m } : State) =
      { s with
        cmd := v, status := statusFinished true .none, ctx := ctxSucceeded (ctxBothGranted v s b p e b' p' e')
        mem := m, answers := r
        lockTrace := s.lockTrace ++
          [.lock (commandHandle v s) (.grant b p e), .lock s.regs.hChroma (.grant b' p' e'),
           .unlock s.regs.hChroma, .unlock (commandHandle v s)] } := by
  rw [dualSucceeded, commandEnded, finish, accept, hp]
  rfl

/-- A command with two surfaces, both present and granted under the contract, succeeds and leaves its luma samples
and chroma pairs (R132, R133, R160, R161). -/
theorem exec_dualCommand {w : Nat} (hi : encode i = .cmd v) (hp : s.phase = .idle)
    (hm : Memory.wf s.mem = true) (hdual : single (cmdPresent v) = false)
    (hmain : presentBit (cmdPresent v) (mainSel (cmdPresent v)) = true)
    (hchroma : presentBit (cmdPresent v) .chroma = true) (hw : sampleWidth (cmdDepth v) = w)
    (ha : s.answers = .grant b p e :: .grant b' p' e' :: r)
    (hcontract : splitContract w (ctxBothGranted v s b p e b' p' e')) :
    ∃ m, exec i s = .next { dualSucceeded v s b p e b' p' e' r with mem := m } ∧
      splitCopied w (chromaOffset w) s.regs.lumaWidth.toNat s.regs.lumaHeight.toNat
        s.regs.chromaWidth.toNat s.regs.chromaHeight.toNat
        (ctxSrc (ctxBothGranted v s b p e b' p' e') (channelPlane .split w 0)).toNat
        (ctxSrc (ctxBothGranted v s b p e b' p' e') (channelPlane .split w 1)).toNat
        (ctxSrc (ctxBothGranted v s b p e b' p' e') (channelPlane .split w 2)).toNat
        (elementStride s.regs.lumaStride w) (elementStride s.regs.chromaStride w) b.toNat (elementStride p w)
        b'.toNat (elementStride p' w) s.mem m := by
  subst hw
  have hphase : (bothGranted v s b p e b' p' e' r).phase = .copy := rfl
  obtain ⟨m, hnext, hcopied⟩ := splitPhase_copies (sampleWidth_le_addrSpace _) hphase hm (.inl hcontract)
  have hcopy := (inCopyPhase_next hnext).2
  rw [← topology_dual hdual] at hcopy
  refine ⟨m, ?_, hcopied⟩
  rw [exec_command_idle hi hp, runPhases_mainGranted hmain ha, runPhases_bothGranted hdual hchroma]
  exact runPhases_dualCopied ((phaseStep_copy hphase).trans hcopy) 0

end

/-! ### The six commands -/

/-- Settles O30: both commands have one surface and W = 1, where channels 0, 1, 2 are planes 2, 1, 0 and strides are
byte strides. -/
theorem packedEightBitCommandsComplete : Obligations.PackedEightBitCommandsComplete := by
  intro pl pc pr d i v h s b p e rest hcmd hd hp hm ha hcontract
  obtain ⟨hi, hsingle, hw, rfl⟩ : encode i = .cmd v ∧ single (cmdPresent v) = true ∧
      sampleWidth (cmdDepth v) = 1 ∧ commandHandle v s = h := by
    rcases hcmd with ⟨rfl, rfl, rfl⟩ | ⟨rfl, rfl, rfl⟩ <;> simp [encode, sampleWidth_narrow hd]
  obtain ⟨m, hexec, hcopied⟩ := exec_singleCommand hi hp hm hsingle hw ha hcontract
  rw [elementStride_one, elementStride_one, elementStride_one] at hcopied
  exact ⟨_, hexec, readReg_status_succeeded rfl, hcopied, singleSucceeded_frame hp m⟩

/-- Settles O31: both commands have one surface and W = 2, where channels 0, 1, 2 are planes 0, 1, 2 and strides are
halved. -/
theorem packedSixteenBitCommandsComplete : Obligations.PackedSixteenBitCommandsComplete := by
  intro pl pc pr d i v h s b p e rest hcmd hd hp hm ha hcontract
  obtain ⟨hi, hsingle, hw, rfl⟩ : encode i = .cmd v ∧ single (cmdPresent v) = true ∧
      sampleWidth (cmdDepth v) = 2 ∧ commandHandle v s = h := by
    rcases hcmd with ⟨rfl, rfl, rfl⟩ | ⟨rfl, rfl, rfl⟩ <;> simp [encode, sampleWidth_wide hd]
  obtain ⟨m, hexec, hcopied⟩ := exec_singleCommand hi hp hm hsingle hw ha hcontract
  exact ⟨_, hexec, readReg_status_succeeded rfl, hcopied, singleSucceeded_frame hp m⟩

/-- Settles O32: the command word has two surfaces, luma and chroma present; at W = 1 channels 1 and 2 are planes 2
and 1, at W = 2 planes 1 and 2. -/
theorem dualCommandsComplete : Obligations.DualCommandsComplete := by
  intro d s b p e b' p' e' rest hp hm ha
  obtain ⟨hdual, hmain, hchroma⟩ := dualCommand_mode d
  have hhandle : commandHandle (cmdWord true true false false d) s = s.regs.hLuma := commandHandle_cmdWord _ _ _ _ _ _
  rw [← hhandle]
  refine ⟨fun hd hcontract => ?narrow, fun hd hcontract => ?wide⟩
  case narrow =>
    obtain ⟨m, hexec, hcopied⟩ := exec_dualCommand (i := .uplDual8 true true d) rfl hp hm hdual hmain hchroma
      (by rw [cmdDepth_cmdWord, sampleWidth_narrow hd]) ha hcontract
    rw [elementStride_one, elementStride_one, elementStride_one, elementStride_one] at hcopied
    exact ⟨_, hexec, readReg_status_succeeded rfl, hcopied, dualSucceeded_frame hp m⟩
  case wide =>
    obtain ⟨m, hexec, hcopied⟩ := exec_dualCommand (i := .uplDual16 true true d) rfl hp hm hdual hmain hchroma
      (by rw [cmdDepth_cmdWord, sampleWidth_wide hd]) ha hcontract
    exact ⟨_, hexec, readReg_status_succeeded rfl, hcopied, dualSucceeded_frame hp m⟩

end Sys2Proof.Machine
end

