-- ==== Sys2Proof/Proofs/RegisterTransactions.lean ====
section
/-! The register transactions: what a read returns, the one register a write replaces, the three cases of the
doorbell, and a command against its doorbell and the block's steps. Spec: 10_state.md R21, R29;
42_host_and_lock_transactions.md R180 to R183; 41_frame_upload_coordinator.md R152 to R166. -/

namespace Sys2Proof.Machine

open Sys2Proof
open Sys2Proof.Laws

/-! ### Word indices -/

/-- The word index of a descriptor register (R21). -/
def regWidx (g : Reg) : BitVec 6 :=
  match g with
  | .frameIndex => 2
  | .dstFormat => 3
  | .src0Lo => 4
  | .src0Hi => 5
  | .src1Lo => 6
  | .src1Hi => 7
  | .src2Lo => 8
  | .src2Hi => 9
  | .lumaWidth => 10
  | .lumaHeight => 11
  | .lumaStride => 12
  | .chromaWidth => 13
  | .chromaHeight => 14
  | .chromaStride => 15
  | .hLuma => 16
  | .hChroma => 17
  | .hYuv444 => 18
  | .hRgb => 19

@[simp] theorem regOfWidx_regWidx (g : Reg) : regOfWidx (regWidx g) = some g := by
  cases g <;> rfl

theorem regWidx_injective : Function.Injective regWidx := fun g g' h => by
  simpa using congrArg regOfWidx h

theorem regWidx_of_regOfWidx {w : BitVec 6} {g : Reg} (h : regOfWidx w = some g) : regWidx g = w := by
  unfold regOfWidx at h
  split at h <;> cases h <;> exact (BitVec.eq_of_toNat_eq ‹_›).symm

/-- Word indices 2 to 19 are those of the descriptor registers (R182). -/
theorem regOfWidx_eq_none_iff (w : BitVec 6) : regOfWidx w = none ↔ ¬ (2 ≤ w.toNat ∧ w.toNat ≤ 19) := by
  revert w
  decide

theorem exists_regWidx {w : BitVec 6} (hlo : 2 ≤ w.toNat) (hhi : w.toNat ≤ 19) : ∃ g, regWidx g = w := by
  cases hw : regOfWidx w with
  | none => exact absurd ⟨hlo, hhi⟩ ((regOfWidx_eq_none_iff w).mp hw)
  | some g => exact ⟨g, regWidx_of_regOfWidx hw⟩

/-! ### Reading -/

theorem readReg_regWidx (s : State) (g : Reg) : readReg s (regWidx g) = getReg s.regs g := by
  cases g <;> rfl

/-- What is no descriptor register reads the same whatever those hold (R180). -/
theorem readReg_of_none {w : BitVec 6} (h : regOfWidx w = none) (s : State) (r : Regs) :
    readReg { s with regs := r } w = readReg s w := by
  simp only [readReg, h]

/-- A reserved offset reads 0 (R180). -/
theorem readReg_reserved {w : BitVec 6} (h : 20 ≤ w.toNat) (s : State) : readReg s w = 0 := by
  have hnone : regOfWidx w = none := (regOfWidx_eq_none_iff w).mpr (by omega)
  rw [readReg, if_neg (by omega), if_neg (by omega), hnone]

/-- Settles O10: each named index by what `readReg` answers there, the reserved ones as reading 0. -/
theorem registerReadReturnsAndChangesNothing : Obligations.RegisterReadReturnsAndChangesNothing := by
  intro w s
  refine ⟨rfl, ?_, ?_, ?_, ?_, ?_, ?_, ?_, ?_, ?_, ?_, ?_, ?_, ?_, ?_, ?_, ?_, ?_, ?_, ?_, ?_, ?reserved⟩
  case reserved => exact fun h => readReg_reserved h s
  all_goals rintro rfl; rfl

/-! ### Writing a descriptor register -/

theorem getReg_setReg (r : Regs) (n m : Reg) (v : Word) :
    getReg (setReg r n v) m = if m = n then v else getReg r m := by
  cases n <;> cases m <;> rfl

theorem exec_wr_regWidx (g : Reg) (v : Word) (s : State) :
    exec (.wr (regWidx g) v) s = .next { s with regs := setReg s.regs g v } := by
  simp only [exec, execWr, regOfWidx_regWidx]

/-- After a register write that register reads the value, every other index as before (R29, R182). -/
theorem readReg_setReg (s : State) (g : Reg) (v : Word) (u : BitVec 6) :
    readReg { s with regs := setReg s.regs g v } u = if u = regWidx g then v else readReg s u := by
  cases hu : regOfWidx u with
  | none =>
    have hne : u ≠ regWidx g := by rintro rfl; simp at hu
    rw [readReg_of_none hu, if_neg hne]
  | some n =>
    obtain rfl := regWidx_of_regOfWidx hu
    simp only [readReg_regWidx, getReg_setReg, regWidx_injective.eq_iff]

/-- Settles O11: word indices 2 to 19 are descriptor registers, and WR sets the one at its index. -/
theorem descriptorWriteReplacesOneRegister : Obligations.DescriptorWriteReplacesOneRegister := by
  intro w v s hlo hhi
  obtain ⟨g, rfl⟩ := exists_regWidx hlo hhi
  exact ⟨_, exec_wr_regWidx g v s, readReg_setReg s g v, rfl⟩

/-- Settles O12: the ignored write answers the same state, and its message decodes to itself. -/
theorem ignoredWriteChangesNothing : Obligations.IgnoredWriteChangesNothing :=
  ⟨fun _ _ _ => rfl, fun w v h => RoundTrip.wrIgnored w v (decide_eq_true h)⟩

/-! ### The doorbell and the commands -/

theorem exec_wrCmd (v : Word) (s : State) : exec (.wrCmd v) s = .next (writeCommand v s) := rfl

theorem cmdLegal_eq_false_iff {v : BitVec 32} :
    cmdLegal v = false ↔ v.extractLsb' 4 4 ≠ 0#4 ∨ v.extractLsb' 16 16 ≠ 0#16 := by
  rw [Bool.eq_false_iff, Ne, cmdLegal_iff, not_and_or]

theorem writeCommand_legal {v : Word} {s : State} (hp : s.phase = .idle) (hv : cmdLegal v = true) :
    writeCommand v s = accept v s := by
  simp [writeCommand, hp, hv]

theorem writeCommand_busy {v : Word} {s : State} (hp : s.phase ≠ .idle) : writeCommand v s = s := by
  rcases writeCommand_cases v s with ⟨-, h⟩ | ⟨hidle, -⟩ | ⟨hidle, -⟩
  · exact h
  all_goals exact absurd hidle hp

/-- Settles O13: a legal word in IDLE is accepted, an illegal one rejected, and in any other phase the word is
ignored. -/
theorem doorbellAcceptsRejectsOrIgnores : Obligations.DoorbellAcceptsRejectsOrIgnores := by
  intro v s
  rw [exec_wrCmd]
  refine ⟨fun hp hlow hhigh => ?accepted, fun hp hbits => ?rejected, fun hp => ?ignored⟩
  case accepted =>
    rw [writeCommand_legal hp (cmdLegal_iff.mpr ⟨hlow, hhigh⟩)]
    rfl
  case rejected =>
    rw [writeCommand_illegal hp (cmdLegal_eq_false_iff.mpr hbits), rejectCommand, finish, hp]
    rfl
  case ignored => rw [writeCommand_busy hp]

/-- Settles O36: each of the six commands is `runCommand` of its word, which does nothing outside IDLE. -/
theorem commandWhileBusyIgnored : Obligations.CommandWhileBusyIgnored := fun _ _ s hi hp =>
  (exec_of_encode_cmd hi s).trans (runCommand_busy hp)

@[simp] theorem writeCommand_turns (v : Word) (s : State) : (writeCommand v s).turns = s.turns := by
  rcases writeCommand_cases v s with ⟨-, h⟩ | ⟨-, -, h⟩ | ⟨-, -, h⟩ <;> rw [h] <;> rfl

/-- Settles O37: the first step is the doorbell, and with no turn left the other five are the sequencer's. -/
theorem commandRefinesDoorbellAndPhases : Obligations.CommandRefinesDoorbellAndPhases := by
  intro i v s hi _ hp ht
  have hdone : ({ s with turns := [] } : State) = s := by rw [← ht]
  have hdoorbell : step { s with turns := [.write (writeWord 0 v)] } = .next (writeCommand v s) := by
    rw [step_doorbell rfl, hdone]
  have hblock : Host.Core.run core 5 (writeCommand v s) = runPhases 5 (writeCommand v s) :=
    run_eq_runPhases 5 _ ((writeCommand_turns v s).trans ht)
  rw [exec_of_encode_cmd hi, runCommand_idle hp]
  exact (run_next hdoorbell).trans hblock

end Sys2Proof.Machine
end

