-- ==== Sys2Proof/Proofs/LockTransactions.lean ====
section
/-! The lock port: LOCK takes an answer or waits, UNLOCK releases and ends the operation, the contract of the grants
keeps the copies apart, and no step of the machine issues a message outside its phase. Spec:
42_host_and_lock_transactions.md R184 to R186; 41_frame_upload_coordinator.md R155 to R158;
70_reset_and_hazards.md R245, R249. -/

namespace Sys2Proof.Machine

open Sys2Proof

/-! ### LOCK and UNLOCK in their phases -/

theorem exec_lock_waits {h : Word} {s : State} (hp : s.phase = .lockMain ∨ s.phase = .lockChroma)
    (ha : s.answers = []) : exec (.lock h) s = .next s := by
  rcases hp with hp | hp <;> simp only [exec, execLock, hp, ha]

theorem exec_lock_main {h : Word} {s : State} {a : LockAnswer} {r : List LockAnswer} (hp : s.phase = .lockMain)
    (ha : s.answers = a :: r) : exec (.lock h) s = .next (mainAnswered h a r s) := by
  simp only [exec, execLock, hp, ha]

theorem exec_lock_chroma {h : Word} {s : State} {a : LockAnswer} {r : List LockAnswer}
    (hp : s.phase = .lockChroma) (ha : s.answers = a :: r) :
    exec (.lock h) s = .next (chromaAnswered h a r s) := by
  simp only [exec, execLock, hp, ha]

/-- What a LOCK does with its answer beside the lock port is to the context, STATUS and the phase (R152, R153). -/
theorem exec_lock_answered {h : Word} {s : State} {a : LockAnswer} {r : List LockAnswer}
    (hp : s.phase = .lockMain ∨ s.phase = .lockChroma) (ha : s.answers = a :: r) :
    ∃ c f p, exec (.lock h) s = .next { lockAnswered h a r s with ctx := c, status := f, phase := p } := by
  rcases hp with hp | hp
  · rw [exec_lock_main hp ha]
    cases a <;> exact ⟨_, _, _, rfl⟩
  · rw [exec_lock_chroma hp ha]
    cases a <;> exact ⟨_, _, _, rfl⟩

/-- Settles O15: without an answer LOCK waits, with one its effect is `lockAnswered` up to the context, STATUS and
the phase. -/
theorem lockTakesTheAnswerOrWaits : Obligations.LockTakesTheAnswerOrWaits := by
  intro h s hp
  refine ⟨exec_lock_waits hp, fun a r ha => ?_⟩
  obtain ⟨c, f, p, hexec⟩ := exec_lock_answered (h := h) hp ha
  refine ⟨_, hexec, rfl, ?deny, ?grant⟩
  case deny => rintro rfl; rfl
  case grant => rintro b p e rfl; rfl

/-- Settles O18: the two phases that issue UNLOCK. -/
theorem unlockReleasesAndFinishes : Obligations.UnlockReleasesAndFinishes := by
  intro h s
  refine ⟨fun hp => ?unlockChroma, fun hp => ?unlockMain⟩
  all_goals
    simp only [exec, execUnlock, hp]
    rfl

/-! ### The contract of the grants -/

/-- Settles O25: the contract of each topology, for samples of one and two bytes. -/
theorem contractKeepsCopiesInWindowsApart : Obligations.ContractKeepsCopiesInWindowsApart := by
  have hwidth : ∀ w, w = 1 ∨ w = 2 → w ≤ addrSpace := by rintro w (rfl | rfl) <;> decide
  exact ⟨fun w c hw => copiesApart_of_packedContract (hwidth w hw),
    fun w c hw => copiesApart_of_splitContract (hwidth w hw)⟩

/-! ### Messages outside their phases -/

theorem exec_lock_refused {h : Word} {s : State} (hm : s.phase ≠ .lockMain) (hc : s.phase ≠ .lockChroma) :
    exec (.lock h) s = .refused .wrongPhase := by
  cases hp : s.phase
  case lockMain => exact absurd hp hm
  case lockChroma => exact absurd hp hc
  all_goals simp only [exec, execLock, hp]

theorem exec_unlock_refused {h : Word} {s : State} (hc : s.phase ≠ .unlockChroma) (hm : s.phase ≠ .unlockMain) :
    exec (.unlock h) s = .refused .wrongPhase := by
  cases hp : s.phase
  case unlockChroma => exact absurd hp hc
  case unlockMain => exact absurd hp hm
  all_goals simp only [exec, execUnlock, hp]

theorem inCopyPhase_refused {s : State} (hs : s.phase ≠ .copy) (o : Host.Outcome State Fault Refusal) :
    inCopyPhase s o = .refused .wrongPhase := by
  cases hp : s.phase
  case copy => exact absurd hp hs
  all_goals simp only [inCopyPhase, hp]

/-! ### No step is refused for its phase -/

theorem phaseStep_ne_refused (s : State) (f : Refusal) : phaseStep s ≠ .refused f := by
  rcases phaseStep_outcome s with ⟨t, h⟩ | ⟨-, h, -⟩ <;> rw [h] <;> nofun

theorem runPhases_ne_refused (n : Nat) (s : State) (f : Refusal) : runPhases n s ≠ .refused f := by
  induction n generalizing s with
  | zero => nofun
  | succ n ih =>
    rw [runPhases]
    cases h : phaseStep s with
    | next t => exact ih t
    | fault g => nofun
    | refused g => exact absurd h (phaseStep_ne_refused s g)

theorem runCommand_ne_refused (v : Word) (s : State) (f : Refusal) : runCommand v s ≠ .refused f := by
  by_cases hp : s.phase = .idle
  · rw [runCommand_idle hp]
    exact runPhases_ne_refused 5 _ f
  · rw [runCommand_busy hp]
    nofun

/-- Whether the message is one the host sends: a register access or a command (R90, R180 to R183). -/
def hostMessage (p : PortWord) : Bool :=
  match p with
  | .cmd _ => true
  | .regRead _ => true
  | .regWrite _ => true
  | .engsel _ => false
  | .lockmsg _ => false

/-- No message of the host is LOCK, UNLOCK or an engine: what decodes from it is never refused (R180 to R183). -/
theorem exec_hostMessage_ne_refused {i : Instr} {p : PortWord} (hp : hostMessage p = true)
    (h : decode p = .ok i) (s : State) (f : Refusal) : exec i s ≠ .refused f := by
  cases p with
  | cmd w =>
    obtain ⟨v, hv⟩ := encode_of_decodeCmd h
    rw [exec_of_encode_cmd hv]
    exact runCommand_ne_refused v s f
  | regRead w =>
    simp only [decode, decodeRegRead] at h
    split at h <;> cases h
    nofun
  | regWrite w =>
    obtain ⟨x, v, -, rfl | ⟨rfl, -⟩ | rfl⟩ := decodeRegWrite_cases h
    · nofun
    · simp only [exec, execWr]
      split <;> nofun
    · nofun
  | engsel _ | lockmsg _ => cases hp

theorem undecoded_ne_wrongPhase (p : PortWord) (s : State) : undecoded p s ≠ .refused .wrongPhase := by
  cases p <;> nofun

/-- A step on a message of the host. -/
theorem step_hostMessage_ne_wrongPhase {s t : State} {p : PortWord} (hf : fetch s = some (p, t))
    (hp : hostMessage p = true) : step s ≠ .refused .wrongPhase := by
  simp only [step, hf]
  split
  · rename_i i hd
    exact exec_hostMessage_ne_refused hp hd t _
  · exact undecoded_ne_wrongPhase p t

theorem resetInput_ne_wrongPhase (s : State) : resetInput s ≠ .refused .wrongPhase := by
  unfold resetInput
  split <;> nofun

theorem hostStore_ne_wrongPhase (a : Addr) (b : Byte) (s : State) : hostStore a b s ≠ .refused .wrongPhase := by
  unfold hostStore
  split <;> nofun

/-- No step of the machine is refused as out of phase, whoever moves (R155, R184, R185). -/
theorem step_ne_wrongPhase (s : State) : step s ≠ .refused .wrongPhase := by
  cases ht : s.turns with
  | nil => exact step_nil ht ▸ phaseStep_ne_refused s _
  | cons turn r =>
    cases turn with
    | block => exact step_block ht ▸ phaseStep_ne_refused _ _
    | read w => exact step_hostMessage_ne_wrongPhase (fetch_read ht) rfl
    | write w => exact step_hostMessage_ne_wrongPhase (fetch_write ht) rfl
    | command w => exact step_hostMessage_ne_wrongPhase (fetch_command ht) rfl
    | reset => exact step_reset ht ▸ resetInput_ne_wrongPhase _
    | store a b => exact step_store ht ▸ hostStore_ne_wrongPhase a b _

/-- Settles O19: each message outside its phases, then every step by the turn it takes. -/
theorem outOfPhaseMessagesRefused : Obligations.OutOfPhaseMessagesRefused := by
  refine ⟨fun _ _ => exec_lock_refused, fun _ _ => exec_unlock_refused, fun i s hi hp => ?engine,
    step_ne_wrongPhase⟩
  case engine => rcases hi with rfl | rfl | rfl | rfl <;> exact inCopyPhase_refused hp _

end Sys2Proof.Machine
end

