-- ==== Sys2Proof/Proofs/FailedCommands.lean ====
section
/-! The ways a command fails: a surface absent, a LOCK denied; and what every failed command leaves as it was.
Spec: 60_exceptions.md R200 to R205, R212; 41_frame_upload_coordinator.md R152, R153, R157, R158. -/

namespace Sys2Proof.Machine

open Sys2Proof

/-! ### The DUAL commands and the main handle -/

/-- The message of a DUAL command (R160, R161). -/
theorem encode_dual {i : Instr} {pl pc : Bool} {d : BitVec 8}
    (hi : i = .uplDual8 pl pc d ∨ i = .uplDual16 pl pc d) : encode i = .cmd (cmdWord pl pc false false d) := by
  rcases hi with rfl | rfl <;> rfl

/-- A command with two surfaces is a DUAL command (R93, R101). -/
theorem dual_of_encode {i : Instr} {v : Word} (hi : encode i = .cmd v) (hdual : single (cmdPresent v) = false) :
    ∃ pl pc d, v = cmdWord pl pc false false d ∧ (i = .uplDual8 pl pc d ∨ i = .uplDual16 pl pc d) := by
  cases i <;> cases hi
  case uplDual8 pl pc d => exact ⟨pl, pc, d, rfl, .inl rfl⟩
  case uplDual16 pl pc d => exact ⟨pl, pc, d, rfl, .inr rfl⟩
  all_goals simp at hdual

/-- The surfaces of a DUAL command: two, the main one luma, each present by its own bit (R91, R95). -/
theorem dualCommand_surfaces (pl pc : Bool) (d : BitVec 8) :
    single (cmdPresent (cmdWord pl pc false false d)) = false ∧
      presentBit (cmdPresent (cmdWord pl pc false false d))
        (mainSel (cmdPresent (cmdWord pl pc false false d))) = pl ∧
      presentBit (cmdPresent (cmdWord pl pc false false d)) .chroma = pc := by
  rw [single_cmdWord, mainSel_cmdWord]
  exact ⟨rfl, (cmdPresent_getLsbD (by decide)).trans (cmdWord_pLuma _ _ _ _ _),
    (cmdPresent_getLsbD (by decide)).trans (cmdWord_pChroma _ _ _ _ _)⟩

/-- The main handle of a DUAL command is that of luma (R95). -/
theorem dualCommand_handle (pl pc : Bool) (d : BitVec 8) (s : State) :
    commandHandle (cmdWord pl pc false false d) s = s.regs.hLuma := commandHandle_cmdWord _ _ _ _ _ _

/-- The handle of the main surface, by the present bits of the word (R95). -/
theorem commandHandle_eq (v : Word) (s : State) :
    commandHandle v s =
      if v.getLsbD 2 = true then s.regs.hYuv444 else if v.getLsbD 3 = true then s.regs.hRgb
      else s.regs.hLuma := by
  rw [commandHandle, mainHandle, accept_present, mainSel, presentBit, presentBit,
    cmdPresent_getLsbD (by decide), cmdPresent_getLsbD (by decide)]
  split
  · rfl
  · split <;> rfl

/-! ### Each failure -/

/-- A host's read of STATUS after a failure (R33, R180). -/
theorem readReg_status_failed {s : State} {c : Cause} (h : s.status = statusFinished false c) :
    readReg s 1 = 0#24 ++ causeCode c ++ 0b0010#4 := by
  rw [show readReg s 1 = statusWord s.status from rfl, h]
  cases c <;> rfl

section

variable {i : Instr} {v : Word} {s : State} {b : Addr} {p : Word} {e : Nat} {r : List LockAnswer}

/-- No main surface: the command ends before any lock-port traffic (R204). -/
theorem exec_mainAbsent (hi : encode i = .cmd v) (hp : s.phase = .idle)
    (hmain : presentBit (cmdPresent v) (mainSel (cmdPresent v)) = false) :
    exec i s = .next (finish false .mainAbsent (accept v s)) := by
  rw [exec_command_idle hi hp, runPhases_next (phaseStep_lockMain_absent (s := accept v s) rfl hmain),
    runPhases_idle rfl]

/-- The main LOCK denied: the command ends with nothing to give back (R201). -/
theorem exec_mainDenied (hi : encode i = .cmd v) (hp : s.phase = .idle)
    (hmain : presentBit (cmdPresent v) (mainSel (cmdPresent v)) = true) (ha : s.answers = .deny :: r) :
    exec i s =
      .next (finish false .mainLockDenied (lockAnswered (commandHandle v s) .deny r (accept v s))) := by
  rw [exec_command_idle hi hp, runPhases_next (phaseStep_accept_answered hmain ha)]
  exact runPhases_idle rfl 4

/-- No chroma surface: the main lock is taken and given back (R205). -/
theorem exec_chromaAbsent (hi : encode i = .cmd v) (hp : s.phase = .idle)
    (hmain : presentBit (cmdPresent v) (mainSel (cmdPresent v)) = true) (hdual : single (cmdPresent v) = false)
    (hchroma : presentBit (cmdPresent v) .chroma = false) (ha : s.answers = .grant b p e :: r) :
    exec i s = .next { commandEnded v s (ctxMainGranted v s b p e) false .chromaAbsent
      [.lock (commandHandle v s) (.grant b p e), .unlock (commandHandle v s)] with answers := r } := by
  rw [exec_command_idle hi hp, runPhases_mainGranted hmain ha, runPhases_chromaAbsent hdual hchroma]

/-- The chroma LOCK denied: the main lock is taken and given back (R202). -/
theorem exec_chromaDenied (hi : encode i = .cmd v) (hp : s.phase = .idle)
    (hmain : presentBit (cmdPresent v) (mainSel (cmdPresent v)) = true) (hdual : single (cmdPresent v) = false)
    (hchroma : presentBit (cmdPresent v) .chroma = true) (ha : s.answers = .grant b p e :: .deny :: r) :
    exec i s = .next { commandEnded v s (ctxMainGranted v s b p e) false .chromaLockDenied
      [.lock (commandHandle v s) (.grant b p e), .lock s.regs.hChroma .deny, .unlock (commandHandle v s)] with
        answers := r } := by
  rw [exec_command_idle hi hp, runPhases_mainGranted hmain ha, runPhases_chromaDenied hdual hchroma]

/-- What a command that locked its main surface and never came to COPY changes, field by field (R158). -/
theorem commandEnded_frame (hp : s.phase = .idle) (c : Ctx) (ok : Bool) (cause : Cause)
    (events : List LockEvent) :
    ({ commandEnded v s c ok cause events with answers := r } : State) =
      { s with
        cmd := v, status := statusFinished ok cause, ctx := ctxEnded c ok cause, answers := r
        lockTrace := s.lockTrace ++ events } := by
  rw [commandEnded, finish, accept, hp]

end

/-! ### Where a command can stop -/

/-- A step of the block that does not end the operation leaves STATUS as it was (R158). -/
theorem phaseStep_idle_or_status {s t : State} (h : phaseStep s = .next t) :
    t.phase = .idle ∨ t.status = s.status := by
  rcases phaseStep_cases h with ⟨-, rfl⟩ | ⟨-, -, rfl⟩ | ⟨-, -, rfl⟩ | ⟨-, -, a, r, -, rfl⟩ | ⟨-, -, rfl⟩ |
    ⟨-, -, a, r, -, rfl⟩ | ⟨-, m, d, rfl, -⟩ | ⟨-, rfl⟩ | ⟨-, rfl⟩
  case inr.inl => exact .inl rfl
  case inr.inr.inr.inl =>
    cases a with
    | deny => exact .inl rfl
    | grant b p e => exact .inr rfl
  case inr.inr.inr.inr.inr.inl => cases a <;> exact .inr rfl
  case inr.inr.inr.inr.inr.inr.inr.inr => exact .inl rfl
  all_goals exact .inr rfl

/-- An accepted command comes to IDLE or still shows the STATUS of its acceptance (R181, R212). -/
theorem idle_or_accepted {v : Word} {s t : State} {n : Nat} (h : runPhases n (accept v s) = .next t) :
    t.phase = .idle ∨ t.status = statusAccepted := by
  refine runPhases_keeps (P := fun u => u.phase = .idle ∨ u.status = statusAccepted) ?_ (.inr rfl) h
  rintro u w (hidle | haccepted) hstep
  · rw [phaseStep_idle hidle] at hstep
    cases hstep
    exact .inl hidle
  · exact (phaseStep_idle_or_status hstep).imp_right (·.trans haccepted)

/-- A command whose STATUS is not that of its acceptance has ended in one of its ways (R152 to R158). -/
theorem commandEnds_of_exec {i : Instr} {v : Word} {s t : State} (hi : encode i = .cmd v) (hp : s.phase = .idle)
    (h : exec i s = .next t) (ht : t.status ≠ statusAccepted) : CommandEnds v s t := by
  rw [exec_command_idle hi hp] at h
  exact commandEnds_of_idle h ((idle_or_accepted h).resolve_right ht)

/-! ### The obligations -/

/-- Settles O33: the present bits of a DUAL word are its operands, and each absence ends the command in its way. -/
theorem absentSurfacesFail : Obligations.AbsentSurfacesFail := by
  intro pc d i s hp
  refine ⟨fun hi => ?lumaAbsent, fun b p e rest hi ha => ?chromaAbsent⟩
  case lumaAbsent =>
    obtain ⟨-, hmain, -⟩ := dualCommand_surfaces false pc d
    refine ⟨_, exec_mainAbsent (encode_dual hi) hp hmain, (readReg_status_failed rfl).trans rfl, ?_⟩
    rw [finish, accept, hp]
  case chromaAbsent =>
    obtain ⟨hdual, hmain, hchroma⟩ := dualCommand_surfaces true false d
    rw [← dualCommand_handle true false d s]
    exact ⟨_, exec_chromaAbsent (encode_dual hi) hp hmain hdual hchroma ha, (readReg_status_failed rfl).trans rfl,
      commandEnded_frame hp _ _ _ _⟩

/-- Settles O34: the denied LOCK ends the command at once, and its handle is the one the word selects. -/
theorem deniedMainLockFails : Obligations.DeniedMainLockFails := by
  intro i v s rest hp hi hmain ha
  refine ⟨_, exec_mainDenied hi hp hmain ha, (readReg_status_failed rfl).trans rfl, ?frame, commandHandle_eq v s⟩
  rw [finish, lockAnswered, accept, hp]
  rfl

/-- Settles O35: a DUAL command goes through LOCK_CHROMA to its denial; only a command with two surfaces, both
present, has a chroma LOCK to be denied. -/
theorem deniedChromaLockFails : Obligations.DeniedChromaLockFails := by
  refine ⟨fun d i s b p e rest hp hi ha => ?denied, fun i v s t hi hp h hcause => ?onlyDual⟩
  case denied =>
    obtain ⟨hdual, hmain, hchroma⟩ := dualCommand_surfaces true true d
    rw [← dualCommand_handle true true d s]
    exact ⟨_, exec_chromaDenied (encode_dual hi) hp hmain hdual hchroma ha, (readReg_status_failed rfl).trans rfl,
      commandEnded_frame hp _ _ _ _⟩
  case onlyDual =>
    have hstatus : t.status ≠ statusAccepted := fun he => by simp [he, statusAccepted] at hcause
    cases commandEnds_of_exec hi hp h hstatus with
    | chromaDenied hmain hdual hchroma _ =>
      obtain ⟨pl, pc, d, rfl, hd⟩ := dual_of_encode hi hdual
      obtain ⟨-, hluma, hchroma'⟩ := dualCommand_surfaces pl pc d
      obtain rfl := hluma.symm.trans hmain
      obtain rfl := hchroma'.symm.trans hchroma
      exact ⟨d, hd⟩
    | mainAbsent | mainDenied | chromaAbsent | single | dual => cases hcause

/-- Settles O39: a command that is done has ended in one of its ways; the four that fail never come to COPY and have
given back what they locked, the other two succeed. -/
theorem failedOperationWritesNothing : Obligations.FailedOperationWritesNothing := by
  intro i v s t hi _ hp h hdone hfailed
  have hstatus : t.status ≠ statusAccepted := fun he => by simp [he, statusAccepted] at hdone
  cases commandEnds_of_exec hi hp h hstatus with
  | mainAbsent | mainDenied | chromaAbsent | chromaDenied => exact ⟨rfl, rfl, rfl, rfl, rfl, rfl, rfl, rfl⟩
  | single | dual => cases hfailed

end Sys2Proof.Machine
end

