-- ==== Sys2Proof/Proofs/BusyMachine.lean ====
section
/-! The machine while an operation runs: reset is refused, a COPY phase outside the contract faults or stays in its
windows, and the operation comes to its end. Spec: 70_reset_and_hazards.md R231, R248 to R250;
41_frame_upload_coordinator.md R155, R166. -/

namespace Sys2Proof.Machine

open Sys2Proof

/-! ### Reset -/

theorem resetInput_busy {s : State} (hp : s.phase ≠ .idle) : resetInput s = .refused .resetWhileBusy := by
  cases h : s.phase
  case idle => exact absurd h hp
  all_goals simp only [resetInput, h]

/-- Settles O2: the step on a reset turn is the reset input, which answers in IDLE only. -/
theorem resetWhileBusyRefused : Obligations.ResetWhileBusyRefused := fun _ _ ht hp =>
  (step_reset ht).trans (resetInput_busy hp)

/-! ### COPY outside the contract -/

theorem inCopyPhase_copy {s : State} (hp : s.phase = .copy) (o : Host.Outcome State Fault Refusal) :
    inCopyPhase s o = o := by
  simp only [inCopyPhase, hp]

/-- Settles O24: in COPY the four instructions are the COPY phase of their topology and width, and what that can do
is `runCopy_cases`. -/
theorem engineStaysInWindowsOrFaults : Obligations.EngineStaysInWindowsOrFaults := by
  intro i top w s hp hi
  have hexec : exec i s = runCopy top w s := by
    rcases hi with ⟨rfl, rfl, rfl⟩ | ⟨rfl, rfl, rfl⟩ | ⟨rfl, rfl, rfl⟩ | ⟨rfl, rfl, rfl⟩ <;>
      exact inCopyPhase_copy hp _
  rw [hexec]
  rcases runCopy_cases top w s with ⟨hfault, hout⟩ | ⟨m, d, hnext, hin, -, hother, -⟩
  · exact ⟨fun _ => hfault, fun hin => absurd (hout.symm.trans hin) nofun⟩
  · exact ⟨fun hout => absurd (hout.symm.trans hin) nofun, fun _ => ⟨_, hnext, hother, rfl⟩⟩

/-! ### The end of an operation -/

/-- How many steps of the block lead from a phase to IDLE at most: the longest path along the edges of R166. -/
def Phase.stepsLeft (p : Phase) : Nat :=
  match p with
  | .idle => 0
  | .unlockMain => 1
  | .unlockChroma => 2
  | .copy => 3
  | .lockChroma => 4
  | .lockMain => 5

/-- How many LOCKs an operation in a phase has still to make at most (R152, R153). -/
def Phase.locksLeft (p : Phase) : Nat :=
  match p with
  | .lockMain => 2
  | .lockChroma => 1
  | .idle => 0
  | .copy => 0
  | .unlockChroma => 0
  | .unlockMain => 0

theorem Phase.stepsLeft_le_five (p : Phase) : p.stepsLeft ≤ 5 := by
  cases p <;> decide

theorem Phase.locksLeft_le_two (p : Phase) : p.locksLeft ≤ 2 := by
  cases p <;> decide

theorem Phase.stepsLeft_eq_zero {p : Phase} : p.stepsLeft = 0 ↔ p = .idle := by
  cases p <;> decide

/-- The operation is over, or the answers at hand are enough for the LOCKs it has still to make (R250). -/
structure Answered (s : State) : Prop where
  answers : s.phase.locksLeft ≤ s.answers.length
  done : s.phase = .idle → s.status.done = true

/-- A step that ends the operation publishes DONE (R158). -/
theorem advances_finish {s : State} (hp : s.phase ≠ .idle) (ok : Bool) (c : Cause) (u : State) :
    Answered (finish ok c u) ∧ (finish ok c u).phase.stepsLeft < s.phase.stepsLeft :=
  ⟨⟨Nat.zero_le _, fun _ => rfl⟩, Nat.pos_of_ne_zero fun h => hp (Phase.stepsLeft_eq_zero.mp h)⟩

/-- A step from the phase `p` to a later phase `q` of the operation. -/
theorem advances_phase {s t : State} {p q : Phase} (hp : s.phase = p) (hq : t.phase = q)
    (hlocks : q.locksLeft ≤ t.answers.length) (hlt : q.stepsLeft < p.stepsLeft := by decide)
    (hbusy : q ≠ .idle := by decide) : Answered t ∧ t.phase.stepsLeft < s.phase.stepsLeft := by
  subst hp hq
  exact ⟨⟨hlocks, fun hidle => absurd hidle hbusy⟩, hlt⟩

/-- Each step of an operation whose requests are answered goes along an edge of R166, and the answers stay enough. -/
theorem phaseStep_advances {s t : State} (hs : Answered s) (hbusy : s.phase ≠ .idle) (h : phaseStep s = .next t) :
    Answered t ∧ t.phase.stepsLeft < s.phase.stepsLeft := by
  obtain ⟨hanswers, -⟩ := hs
  rcases phaseStep_cases h with ⟨hidle, -⟩ | ⟨-, -, rfl⟩ | ⟨hp, ha, -⟩ | ⟨hp, -, a, r, ha, rfl⟩ | ⟨hp, -, rfl⟩ |
    ⟨hp, -, a, r, ha, rfl⟩ | ⟨hp, m, d, rfl, -⟩ | ⟨hp, rfl⟩ | ⟨-, rfl⟩
  · exact absurd hidle hbusy
  · exact advances_finish hbusy _ _ _
  · rcases hp with hp | hp <;> simp [hp, ha, Phase.locksLeft] at hanswers
  · cases a with
    | deny => exact advances_finish hbusy _ _ _
    | grant b p e =>
      have hr : 1 ≤ r.length := by simpa [hp, ha, Phase.locksLeft] using hanswers
      cases hone : single s.ctx.present
      · exact advances_phase hp (q := .lockChroma) (by simp [mainAnswered, hone]) hr
      · exact advances_phase hp (q := .copy) (by simp [mainAnswered, hone]) (Nat.zero_le _)
  · exact advances_phase hp (q := .unlockMain) rfl (Nat.zero_le _)
  · cases a with
    | deny => exact advances_phase hp (q := .unlockMain) rfl (Nat.zero_le _)
    | grant b p e => exact advances_phase hp (q := .copy) rfl (Nat.zero_le _)
  · cases hheld : s.ctx.chromaHeld
    · exact advances_phase hp (q := .unlockMain) (by simp [hheld]) (Nat.zero_le _)
    · exact advances_phase hp (q := .unlockChroma) (by simp [hheld]) (Nat.zero_le _)
  · exact advances_phase hp (q := .unlockMain) rfl (Nat.zero_le _)
  · exact advances_finish hbusy _ _ _

/-- An operation whose requests are answered is over after as many steps as its phase has left, or stops at the
contract fault. -/
theorem runPhases_ends {n : Nat} {s : State} (hs : Answered s) (hn : s.phase.stepsLeft ≤ n) :
    (∃ t, runPhases n s = .next t ∧ t.phase = .idle ∧ t.status.done = true) ∨
    runPhases n s = .fault .outOfWindow := by
  induction n generalizing s with
  | zero =>
    have hidle := Phase.stepsLeft_eq_zero.mp (Nat.le_zero.mp hn)
    exact .inl ⟨s, rfl, hidle, hs.done hidle⟩
  | succ n ih =>
    by_cases hp : s.phase = .idle
    · exact .inl ⟨s, runPhases_idle hp _, hp, hs.done hp⟩
    · rcases phaseStep_outcome s with ⟨t, h⟩ | ⟨-, h, -⟩
      · obtain ⟨ht, hlt⟩ := phaseStep_advances hs hp h
        rw [runPhases_next h]
        exact ih ht (by omega)
      · exact .inr (by rw [runPhases, h])

/-- Settles O48: with the host still the machine runs as the sequencer does, no phase is more than five steps from
IDLE, and none asks for more than two answers. -/
theorem operationEndsWithinFiveSteps : Obligations.OperationEndsWithinFiveSteps := by
  intro s _ hbusy hturns hanswers
  have hs : Answered s := ⟨s.phase.locksLeft_le_two.trans hanswers, fun hidle => absurd hidle hbusy⟩
  have hends := runPhases_ends hs s.phase.stepsLeft_le_five
  rwa [← run_eq_runPhases 5 s hturns] at hends

end Sys2Proof.Machine
end
